-- ==== Sys2Proof/Word.lean ====
section
/-! DEFINITION. The words, the lines and the events of BBSPI (spec/00_scope.md R5, R6; spec/10_state.md R10, R13). -/

namespace Sys2Proof

/-- A byte: 8 bits, unsigned (00_scope.md section 5.1). -/
abbrev Byte := BitVec 8

/-- A flash address, 24 bits (00_scope.md R4, ADDR_W). -/
abbrev Address := BitVec 24

/-- A payload length, 16 bits, unsigned (00_scope.md R4, LEN_W). -/
abbrev Length := BitVec 16

/-- The four output lines of the signal write register, in the order of `W(c,m,s,e)`; `true` is a high level
(10_state.md R10, 00_scope.md R5). -/
structure Signals where
  clock : Bool
  mosi : Bool
  chipSelect : Bool
  misoEnable : Bool
  deriving DecidableEq, Repr, Inhabited

/-- The two values a write of the mode-select register can carry (10_state.md R13). -/
inductive AccessMode where
  | memoryMapped
  | bitBang
  deriving DecidableEq, Repr

/-- The events of 00_scope.md R6: one register access or one delay call each. -/
inductive Event where
  /-- `W(c,m,s,e)`: one write of the signal register. -/
  | write (v : Signals)
  /-- `R(b)`: one read of the data-in register that returned `b`. -/
  | read (b : Bool)
  /-- `M(x)`: one write of the mode-select register. -/
  | selectMode (m : AccessMode)
  /-- `D(t)`: one call of the delay collaborator for `t` milliseconds. -/
  | delay (ms : Nat)
  deriving DecidableEq, Repr

end Sys2Proof
end

