-- ==== Sys2Proof/Config.lean ====
section
/-! DEFINITION. What is fixed for one machine (spec/00_scope.md R4) and the free values. An `opaque` constant has no
body, so no proof can see its value and a claim holds whatever it is. -/

namespace Sys2Proof

/-- The three OPEN delay durations of `init`, in milliseconds; 0 means that the delay call is not made
(00_scope.md R4, 44_mode_controller.md R152). -/
structure Delays where
  preMs : Nat
  midMs : Nat
  postMs : Nat
  deriving DecidableEq, Repr, Inhabited

/-- `T_PRE_MS`, `T_MID_MS`, `T_POST_MS`: OPEN parameters (D17, U18). DESIGN CHOICE (log 10): opaque; safe. -/
opaque Config.delays : Delays

/-- The level of the data-in line at a read, for the history of events before it (newest first), where the input list
of the state gives none. A free value (10_state.md R29, U8). DESIGN CHOICE (log 4): the form; safe. -/
opaque Config.misoLevel : List Event → Bool

/-- `SIG` after the n-th reset, for the history of events before it: unspecified (10_state.md R32, U5).
DESIGN CHOICE (log 1): one free value for every run; unsafe for a claim that compares two machines. -/
opaque Config.resetSignals : Nat → List Event → Signals

/-- `ACC` after the n-th reset: unspecified (10_state.md R32, U5). DESIGN CHOICE (log 2), as `resetSignals`. -/
opaque Config.resetAcc : Nat → List Event → Byte

/-- `ADDR` after the n-th reset: unspecified (10_state.md R32, U5). DESIGN CHOICE (log 2), as `resetSignals`. -/
opaque Config.resetAddr : Nat → List Event → Address

/-- `LEN` after the n-th reset: unspecified (10_state.md R32, U5). DESIGN CHOICE (log 2), as `resetSignals`. -/
opaque Config.resetLen : Nat → List Event → Length

/-- `P_INIT_CLOCK`: the CLOCK level of the first write of `init` (00_scope.md R4; 90_conflicts.md C1 decides 0; log 11). -/
def Config.initClock : Bool := false

/-- `DUMMY_VALUE` (00_scope.md R4, 30_encoding.md R68; log 11). -/
def Config.dummyValue : Byte := 0x00#8

/-- `PAGE_MAX`: the most payload bytes of one Page Program (00_scope.md R4). -/
def Config.pageMax : Nat := 256

/-- `EXIT_FF_COUNT`: the bytes of the EXIT_EXT frame (00_scope.md R4). -/
def Config.exitFfCount : Nat := 8

/-- `RC_SUCCESS` (00_scope.md R4, 10_state.md R19). -/
def Config.rcSuccess : Nat := 0

end Sys2Proof
end

