-- ==== Sys2Proof/Syntax.lean ====
section
/-! DEFINITION. The instructions of BBSPI: one constructor for each row of spec/opcode_table.json. -/

namespace Sys2Proof

/-- The eleven host commands, in the order of their op codes (30_encoding.md R61). -/
inductive HostOp where
  | init | teardown | isBusy | identify | readUniqueId
  | beginErase4K | beginErase32K | beginErase64K | beginWrite | hold | unhold
  deriving DecidableEq, Repr

/-- The twelve wire frames (30_encoding.md R63). -/
inductive FrameName where
  | identA | identB | readUid | readStatus | writeEnable
  | erase4K | erase32K | erase64K | pageProgram | exitExt | wake | hold
  deriving DecidableEq, Repr

/-- The rows of the opcode table. A host command carries both fields of its word, also where it ignores them
(30_encoding.md R61), so that no bit of the word is lost. A wire frame carries the bytes of it that are no constants. -/
inductive Instr where
  -- host commands, 30_encoding.md R61
  | init (len : Length) (addr : Address)
  | teardown (len : Length) (addr : Address)
  | isBusy (len : Length) (addr : Address)
  | identify (len : Length) (addr : Address)
  | readUniqueId (len : Length) (addr : Address)
  | beginErase4K (len : Length) (addr : Address)
  | beginErase32K (len : Length) (addr : Address)
  | beginErase64K (len : Length) (addr : Address)
  | beginWrite (len : Length) (addr : Address)
  | hold (len : Length) (addr : Address)
  | unhold (len : Length) (addr : Address)
  -- reserved op codes, 30_encoding.md R71 (a)
  | reservedB (len : Length) (addr : Address)
  | reservedCF (low : BitVec 2) (len : Length) (addr : Address)
  -- wire frames, 30_encoding.md R63 and R64
  | identA
  | identB
  | readUid
  | readStatus
  | writeEnable
  | erase4K (addr : Address)
  | erase32K (addr : Address)
  | erase64K (addr : Address)
  | pageProgram (addr : Address) (payload : List Byte)
  | exitExt
  | wake
  | holdFrame
  deriving DecidableEq, Repr

end Sys2Proof
end

