-- ==== Sys2Proof/WellFormed.lean ====
section
/-! DEFINITION. Which instructions are well formed. Every field but one has exactly the width of its encoding; the
payload of a PAGE_PROGRAM frame is at most 256 bytes (30_encoding.md R63, R65). -/

namespace Sys2Proof

/-- A payload that fits a PAGE_PROGRAM frame: n of 30_encoding.md R67 is at most 256. -/
def payloadFits (payload : List Byte) : Bool := decide (payload.length ≤ Config.pageMax)

/-- The check of one instruction. -/
def Instr.wellFormed (i : Instr) : Bool :=
  match i with
  | .init _ _ => true
  | .teardown _ _ => true
  | .isBusy _ _ => true
  | .identify _ _ => true
  | .readUniqueId _ _ => true
  | .beginErase4K _ _ => true
  | .beginErase32K _ _ => true
  | .beginErase64K _ _ => true
  | .beginWrite _ _ => true
  | .hold _ _ => true
  | .unhold _ _ => true
  | .reservedB _ _ => true
  | .reservedCF _ _ _ => true
  | .identA => true
  | .identB => true
  | .readUid => true
  | .readStatus => true
  | .writeEnable => true
  | .erase4K _ => true
  | .erase32K _ => true
  | .erase64K _ => true
  | .pageProgram _ payload => payloadFits payload
  | .exitExt => true
  | .wake => true
  | .holdFrame => true

end Sys2Proof
end

