-- ==== Sys2Proof/Decode.lean ====
section
/-! DEFINITION. The two encodings of spec/30_encoding.md: the host command word (R61) and the wire frames (R62 to R68).
The decoder is total and rejects by name; the encoder is written from the same tables. -/

namespace Sys2Proof

/-- What the decoder reads: a 44-bit host command word (R61), or the transmitted bytes of one wire frame in time order
(R62). -/
inductive Code where
  | host (word : BitVec 44)
  | frame (bytes : List Byte)
  deriving DecidableEq, Repr

/-- Why bytes are no wire frame of R63. Every host word decodes, so none of these is about a host word. -/
inductive DecodeError where
  /-- No byte at all: T >= 1 in R62. -/
  | emptyFrame
  /-- Byte 0 is none of the twelve opcodes of R63. -/
  | unknownOpcode (byte : Byte)
  /-- Byte 0 is the opcode of `f`, and the bytes after it are not those of its format in R64. -/
  | malformedFrame (f : FrameName)
  /-- More than 256 payload bytes in a PAGE_PROGRAM frame (R65). -/
  | payloadTooLong
  deriving DecidableEq, Repr

/-! ### The host command word -/

/-- The op codes of R61. -/
def HostOp.code (op : HostOp) : BitVec 4 :=
  match op with
  | .init => 0x0#4
  | .teardown => 0x1#4
  | .isBusy => 0x2#4
  | .identify => 0x3#4
  | .readUniqueId => 0x4#4
  | .beginErase4K => 0x5#4
  | .beginErase32K => 0x6#4
  | .beginErase64K => 0x7#4
  | .beginWrite => 0x8#4
  | .hold => 0x9#4
  | .unhold => 0xA#4

/-- The instruction of a host command. -/
def HostOp.instr (op : HostOp) (len : Length) (addr : Address) : Instr :=
  match op with
  | .init => .init len addr
  | .teardown => .teardown len addr
  | .isBusy => .isBusy len addr
  | .identify => .identify len addr
  | .readUniqueId => .readUniqueId len addr
  | .beginErase4K => .beginErase4K len addr
  | .beginErase32K => .beginErase32K len addr
  | .beginErase64K => .beginErase64K len addr
  | .beginWrite => .beginWrite len addr
  | .hold => .hold len addr
  | .unhold => .unhold len addr

/-- The word `op[43:40] ++ len[39:24] ++ addr[23:0]` (R61). -/
def hostWord (op : BitVec 4) (len : Length) (addr : Address) : BitVec 44 := op ++ len ++ addr

/-- The field `op[43:40]`. -/
def opField (w : BitVec 44) : BitVec 4 := w.extractLsb' 40 4

/-- The field `len[39:24]`. -/
def lenField (w : BitVec 44) : Length := w.extractLsb' 24 16

/-- The field `addr[23:0]`. -/
def addrField (w : BitVec 44) : Address := w.extractLsb' 0 24

/-- The instruction of a host word: total, because the codes 0xB to 0xF are rows of their own (R61, R71 (a)). -/
def decodeHost (w : BitVec 44) : Instr :=
  match (opField w).toNat with
  | 0 => .init (lenField w) (addrField w)
  | 1 => .teardown (lenField w) (addrField w)
  | 2 => .isBusy (lenField w) (addrField w)
  | 3 => .identify (lenField w) (addrField w)
  | 4 => .readUniqueId (lenField w) (addrField w)
  | 5 => .beginErase4K (lenField w) (addrField w)
  | 6 => .beginErase32K (lenField w) (addrField w)
  | 7 => .beginErase64K (lenField w) (addrField w)
  | 8 => .beginWrite (lenField w) (addrField w)
  | 9 => .hold (lenField w) (addrField w)
  | 10 => .unhold (lenField w) (addrField w)
  | 11 => .reservedB (lenField w) (addrField w)
  | _ => .reservedCF ((opField w).extractLsb' 0 2) (lenField w) (addrField w)

/-! ### The wire frames -/

/-- A row of the opcode descriptor table (R63). `fillBytes` counts the constant 0xFF bytes EXIT_EXT sends after its first. -/
structure Descriptor where
  opcode : Byte
  addressBytes : Nat
  dummyBytes : Nat
  fillBytes : Nat
  payloadMax : Nat
  received : Nat
  deriving DecidableEq, Repr

/-- The opcode descriptor table, R63, as data. -/
def descriptor (f : FrameName) : Descriptor :=
  match f with
  | .identA => ⟨0x90#8, 0, 3, 0, 0, 2⟩
  | .identB => ⟨0x9F#8, 0, 0, 0, 0, 3⟩
  | .readUid => ⟨0x4B#8, 0, 4, 0, 0, 8⟩
  | .readStatus => ⟨0x05#8, 0, 0, 0, 0, 1⟩
  | .writeEnable => ⟨0x06#8, 0, 0, 0, 0, 0⟩
  | .erase4K => ⟨0x20#8, 3, 0, 0, 0, 0⟩
  | .erase32K => ⟨0x52#8, 3, 0, 0, 0, 0⟩
  | .erase64K => ⟨0xD8#8, 3, 0, 0, 0, 0⟩
  | .pageProgram => ⟨0x02#8, 3, 0, 0, Config.pageMax, 0⟩
  | .exitExt => ⟨0xFF#8, 0, 0, Config.exitFfCount - 1, 0, 0⟩
  | .wake => ⟨0xAB#8, 0, 0, 0, 0, 0⟩
  | .hold => ⟨0xB9#8, 0, 0, 0, 0, 0⟩

/-- All frames, in the order of R63. -/
def FrameName.all : List FrameName :=
  [.identA, .identB, .readUid, .readStatus, .writeEnable, .erase4K, .erase32K, .erase64K, .pageProgram, .exitExt,
    .wake, .hold]

/-- `A2`, `A1`, `A0` in the order sent: `trunc_8(ADDR >> 16)`, `trunc_8(ADDR >> 8)`, `trunc_8(ADDR)` (R66). -/
def addressBytes (addr : Address) : List Byte :=
  [(addr >>> 16).setWidth 8, (addr >>> 8).setWidth 8, addr.setWidth 8]

/-- The address whose bytes are `a2`, `a1`, `a0` (R66 read backwards). -/
def joinAddress (a2 a1 a0 : Byte) : Address := a2 ++ a1 ++ a0

/-- The transmitted bytes of a frame, in time order (R64): opcode, address, dummy bytes, constant 0xFF bytes, payload. -/
def frameBytes (f : FrameName) (addr : Address) (payload : List Byte) : List Byte :=
  (descriptor f).opcode ::
    ((addressBytes addr).take (descriptor f).addressBytes
      ++ List.replicate (descriptor f).dummyBytes Config.dummyValue
      ++ List.replicate (descriptor f).fillBytes 0xFF#8
      ++ payload.take (descriptor f).payloadMax)

/-- The frame whose opcode a byte is (R62: the first byte identifies the frame). -/
def frameOfOpcode (b : Byte) : Option FrameName :=
  FrameName.all.find? fun f => (descriptor f).opcode == b

/-- A frame without operands: the bytes after its opcode are constants. -/
def decodeConstant (f : FrameName) (i : Instr) (rest : List Byte) : Except DecodeError Instr :=
  if (descriptor f).opcode :: rest = frameBytes f 0 [] then .ok i else .error (.malformedFrame f)

/-- A frame of the format F_OP_A3: exactly three address bytes. -/
def decodeAddressed (f : FrameName) (i : Address → Instr) (rest : List Byte) : Except DecodeError Instr :=
  match rest with
  | [a2, a1, a0] => .ok (i (joinAddress a2 a1 a0))
  | _ => .error (.malformedFrame f)

/-- The format F_OP_A3_TXN: three address bytes, then up to 256 payload bytes. -/
def decodePageProgram (rest : List Byte) : Except DecodeError Instr :=
  match rest with
  | a2 :: a1 :: a0 :: payload =>
    if payloadFits payload then .ok (.pageProgram (joinAddress a2 a1 a0) payload) else .error .payloadTooLong
  | _ => .error (.malformedFrame .pageProgram)

/-- The bytes after the opcode, by the frame's format (R64). -/
def decodeRest (f : FrameName) (rest : List Byte) : Except DecodeError Instr :=
  match f with
  | .identA => decodeConstant .identA .identA rest
  | .identB => decodeConstant .identB .identB rest
  | .readUid => decodeConstant .readUid .readUid rest
  | .readStatus => decodeConstant .readStatus .readStatus rest
  | .writeEnable => decodeConstant .writeEnable .writeEnable rest
  | .erase4K => decodeAddressed .erase4K .erase4K rest
  | .erase32K => decodeAddressed .erase32K .erase32K rest
  | .erase64K => decodeAddressed .erase64K .erase64K rest
  | .pageProgram => decodePageProgram rest
  | .exitExt => decodeConstant .exitExt .exitExt rest
  | .wake => decodeConstant .wake .wake rest
  | .hold => decodeConstant .hold .holdFrame rest

/-- The frame that transmitted bytes spell, or why they spell none (R63, R64, R71 (c)). -/
def decodeFrame (bytes : List Byte) : Except DecodeError Instr :=
  match bytes with
  | [] => .error .emptyFrame
  | b :: rest =>
    match frameOfOpcode b with
    | none => .error (.unknownOpcode b)
    | some f => decodeRest f rest

/-- The decoder: total, rejecting by name. -/
def decode (c : Code) : Except DecodeError Instr :=
  match c with
  | .host w => .ok (decodeHost w)
  | .frame bytes => decodeFrame bytes

/-! ### The encoder -/

/-- The words of an instruction (R61 for a host command, R64 for a frame). -/
def encode (i : Instr) : Code :=
  match i with
  | .init len addr => .host (hostWord 0x0#4 len addr)
  | .teardown len addr => .host (hostWord 0x1#4 len addr)
  | .isBusy len addr => .host (hostWord 0x2#4 len addr)
  | .identify len addr => .host (hostWord 0x3#4 len addr)
  | .readUniqueId len addr => .host (hostWord 0x4#4 len addr)
  | .beginErase4K len addr => .host (hostWord 0x5#4 len addr)
  | .beginErase32K len addr => .host (hostWord 0x6#4 len addr)
  | .beginErase64K len addr => .host (hostWord 0x7#4 len addr)
  | .beginWrite len addr => .host (hostWord 0x8#4 len addr)
  | .hold len addr => .host (hostWord 0x9#4 len addr)
  | .unhold len addr => .host (hostWord 0xA#4 len addr)
  | .reservedB len addr => .host (hostWord 0xB#4 len addr)
  | .reservedCF low len addr => .host (hostWord (0b11#2 ++ low) len addr)
  | .identA => .frame (frameBytes .identA 0 [])
  | .identB => .frame (frameBytes .identB 0 [])
  | .readUid => .frame (frameBytes .readUid 0 [])
  | .readStatus => .frame (frameBytes .readStatus 0 [])
  | .writeEnable => .frame (frameBytes .writeEnable 0 [])
  | .erase4K addr => .frame (frameBytes .erase4K addr [])
  | .erase32K addr => .frame (frameBytes .erase32K addr [])
  | .erase64K addr => .frame (frameBytes .erase64K addr [])
  | .pageProgram addr payload => .frame (frameBytes .pageProgram addr payload)
  | .exitExt => .frame (frameBytes .exitExt 0 [])
  | .wake => .frame (frameBytes .wake 0 [])
  | .holdFrame => .frame (frameBytes .hold 0 [])

/-! ### A word as spec/opcode_table.json numbers its bits -/

/-- The first `n` bytes of a number, least significant first: byte 0 is the byte at the lowest address, or the first
sent. -/
def bytesOfNat (n w : Nat) : List Byte :=
  match n with
  | 0 => []
  | n + 1 => BitVec.ofNat 8 w :: bytesOfNat n (w / 256)

/-- The bytes of a wire frame of which the table gives `nbits` bits. Bytes the word does not reach are the row's
constants, with zeros for operands. Of EXIT_EXT the table's match fixes byte 0 alone, and its other bytes are constants
of the row too: a word of that one byte stands for the whole frame (log 15). -/
def tableFrame (nbits w : Nat) : List Byte :=
  let given := bytesOfNat ((nbits + 7) / 8) w
  match frameOfOpcode (BitVec.ofNat 8 w) with
  | none => given
  | some f =>
    if f = .exitExt ∧ w = 0xFF then frameBytes .exitExt 0 []
    else given ++ (frameBytes f 0 []).drop given.length

/-- The code a table word stands for. A host row has 44 bits, 48 in whole bytes; every other row is a wire frame and no
wire row of the table has 44 or 48 bits. DESIGN CHOICE: R61 gives a host word bits 43:0 only; bits of `w` above 43 are
dropped here (log 15). -/
def tableCode (nbits w : Nat) : Code :=
  if nbits = 44 ∨ nbits = 48 then .host (BitVec.ofNat 44 w) else .frame (tableFrame nbits w)

/-- The instruction the decoder reads from a word numbered as spec/opcode_table.json numbers it. DESIGN CHOICE: a host
word with a bit above 43 set, of which R61 says nothing, is refused here (log 15). -/
def decodeTableWord (nbits w : Nat) : Option Instr :=
  if (nbits = 44 ∨ nbits = 48) ∧ 2 ^ 44 ≤ w then none
  else (decode (tableCode nbits w)).toOption

end Sys2Proof
end

