-- ==== Sys2Proof/Machine/State.lean ====
section
/-! DEFINITION. The state of BBSPI as plain data, with everything spec/10_state.md gives it, the environment the block
acts with, and the state after reset (R32). -/

namespace Sys2Proof.Machine

/-- `MODE`, with the third value the spec gives it (10_state.md R13). -/
inductive DeviceMode where
  | unknown
  | memoryMapped
  | bitBang
  deriving DecidableEq, Repr

/-- `FRAMER` (10_state.md R21). -/
inductive Framer where
  | idle
  | active
  deriving DecidableEq, Repr

/-- `SEQ`, the sequencer position (10_state.md R20): idle, or the index of the next event of a command. -/
inductive Seq where
  | idle
  | running (op : HostOp) (k : Nat)
  deriving DecidableEq, Repr

/-- `FCAUSE` with its recorded value (60_exceptions.md R160 to R163). -/
inductive FaultCause where
  | noFault
  /-- `F_RESERVED_OP`; the recorded value is the op field (R160). -/
  | reservedOp (op : BitVec 4)
  /-- `F_MODE`; the recorded value is the op field (R161). -/
  | mode (op : BitVec 4)
  /-- `F_OPERAND`; the recorded value is the first missing payload index (R163). -/
  | operand (index : Nat)
  /-- `F_NEST` (R162). -/
  | nest
  /-- `F_FRAME` (R162). -/
  | frame
  deriving DecidableEq, Repr

/-- A host command as the caller presents it: the word of 30_encoding.md R61 and the optional payload beside it. -/
structure Request where
  word : BitVec 44
  payload : Option (List Byte)
  deriving DecidableEq, Repr

/-- The machine. The fields down to `fcause` are the block's (INVENTORY.md); those after it are the model's own and hold
its environment. -/
structure State where
  /-- `SIG` (R10). -/
  sig : Signals
  /-- `MODE` (R13). -/
  mode : DeviceMode
  /-- `ACC` (R15). -/
  acc : Byte
  /-- `ADDR` (R16). -/
  addr : Address
  /-- `LEN` (R16). -/
  len : Length
  /-- `RBUF[0..7]`; an entry no operation has written holds no value (R17). -/
  rbuf : Vector (Option Byte) 8
  /-- `PBUF`: the entries supplied with the last `beginWrite` presented, from index 0; an entry at or above the length holds
  no value (R18; log 6). -/
  pbuf : List Byte
  /-- `BUSY`; no value until `isBusy` completes (R19). -/
  busy : Option Bool
  /-- `RC`; no value until `init` completes (R19). -/
  rc : Option Nat
  /-- `SEQ` (R20). -/
  seq : Seq
  /-- `FRAMER` (R21). -/
  framer : Framer
  /-- `FAULT` (R22). -/
  fault : Bool
  /-- `FCAUSE` (R22). -/
  fcause : FaultCause
  /-- The next levels of the data-in line; where it is empty a level is free (R29; log 4). -/
  misoIn : List Bool
  /-- The events emitted so far, newest first (00_scope.md R6; log 5). -/
  trace : List Event
  /-- The host commands not yet presented, next first (R61; log 6). -/
  caller : List Request
  /-- A bare wire frame for the next step; no host command fills it (log 7). -/
  frameSlot : Option (List Byte)
  /-- The platform asks for a reset (70_reset_and_hazards.md R190; log 13). -/
  resetIn : Bool
  /-- The resets so far (log 13). -/
  resets : Nat
  deriving DecidableEq, Repr

/-- Why the machine stops. No instruction of the table stops on every path. -/
inductive Fault where
  /-- Raised by `exec`: an instruction is presented while a command is in progress. The spec gives no step (D29, U6).
  Safe: the model stops where the spec says nothing happens. `step` never does this (log 9). -/
  | commandInProgress
  /-- Raised by the event step: `SEQ = (op, k)` with `k` at or past the last event, which 10_state.md R20 excludes.
  Safe: no run reaches it (log 9). -/
  | positionOutOfRange
  deriving DecidableEq, Repr

/-- Why the model gives no meaning. -/
inductive Refusal where
  /-- Raised by `exec` for an instruction without a meaning. Safe. No arm does so now. -/
  | notModelled (mnemonic : String)
  /-- Raised by `step`: the bytes in the frame slot are none of the twelve frames, which the block never sends
  (30_encoding.md R71 (c)). Safe. -/
  | noSuchFrame (why : DecodeError)
  deriving DecidableEq, Repr

/-- The machine right after reset (10_state.md R32, 70_reset_and_hazards.md R190). `SIG`, `ACC`, `ADDR` and `LEN` are
unspecified there: free values (log 1, log 2). -/
def State.reset : State where
  sig := Config.resetSignals 0 []
  mode := .unknown
  acc := Config.resetAcc 0 []
  addr := Config.resetAddr 0 []
  len := Config.resetLen 0 []
  rbuf := Vector.replicate 8 none
  pbuf := []
  busy := none
  rc := none
  seq := .idle
  framer := .idle
  fault := false
  fcause := .noFault
  misoIn := []
  trace := []
  caller := []
  frameSlot := none
  resetIn := false
  resets := 0

end Sys2Proof.Machine
end

