-- ==== Sys2Proof/Machine/Flags.lean ====
section
/-! DEFINITION. Flags and codes (spec/10_state.md R13, R19, R22; spec/60_exceptions.md section 1). BBSPI has no condition
codes. -/

namespace Sys2Proof.Machine

/-- The busy flag: bit 0 of the status byte; the other seven bits are discarded (R19). -/
def busyFlag (status : Byte) : Bool := status.getLsbD 0

/-- The cause codes of 60_exceptions.md section 1. -/
def FaultCause.code (c : FaultCause) : Nat :=
  match c with
  | .noFault => 0
  | .reservedOp _ => 1
  | .mode _ => 2
  | .operand _ => 3
  | .nest => 4
  | .frame => 5

/-- The recorded value of a cause (60_exceptions.md section 1); F_NEST and F_FRAME record none. -/
def FaultCause.value (c : FaultCause) : Option Nat :=
  match c with
  | .noFault => none
  | .reservedOp op => some op.toNat
  | .mode op => some op.toNat
  | .operand index => some index
  | .nest => none
  | .frame => none

/-- The mode a write of the mode-select register leaves (R13). -/
def modeAfter (m : AccessMode) : DeviceMode :=
  match m with
  | .memoryMapped => .memoryMapped
  | .bitBang => .bitBang

end Sys2Proof.Machine
end

