-- ==== Sys2Proof/Machine/Operands.lean ====
section
/-! DEFINITION. Operand forms: payload count, payload bytes, bit extraction and response assembly
(spec/30_encoding.md R66 to R69, spec/41_bit_transport.md R104). Address and dummy bytes stand with the encoder. -/

namespace Sys2Proof.Machine

/-- `n = min(LEN, 256)` (R67). -/
def payloadCount (len : Length) : Nat := min len.toNat Config.pageMax

/-- `PBUF[0..n-1]` in index order (R130, 20_memory.md R45). -/
def payloadBytes (len : Length) (pbuf : List Byte) : List Byte := pbuf.take (payloadCount len)

/-- The smallest `i < n` for which `PBUF[i]` holds no value (60_exceptions.md R163). -/
def missingPayload (len : Length) (pbuf : List Byte) : Option Nat :=
  if pbuf.length < payloadCount len then some pbuf.length else none

/-- `v[i]` (R104 (a)). -/
def byteBit (v : Byte) (i : Nat) : Bool := v.getLsbD i

/-- `trunc_8((ACC << 1) | bit)` (R101, R104 (b)). -/
def shiftIn (acc : Byte) (bit : Bool) : Byte := (acc <<< 1) ||| (BitVec.ofBool bit).setWidth 8

/-- The entries `k`, `k+1`, … of the response buffer replaced by received bytes, in arrival order (R69, 10_state.md R17). -/
def storeFrom (rbuf : Vector (Option Byte) 8) (k : Nat) (bytes : List Byte) : Vector (Option Byte) 8 :=
  match bytes with
  | [] => rbuf
  | b :: rest => storeFrom (rbuf.setIfInBounds k (some b)) (k + 1) rest

end Sys2Proof.Machine
end

