-- ==== Sys2Proof/Machine/Ops.lean ====
section
/-! DEFINITION. The named operations over registers that every instruction is made of: the Signal Driver
(spec/40_signal_driver.md R90, R91), the mode write (spec/44_mode_controller.md), the delay call (R152), fault entry
(spec/60_exceptions.md R165) and reset (spec/70_reset_and_hazards.md R190). -/

namespace Sys2Proof.Machine

/-- What a procedure of the sequencer answers: a value and the state, or the state a raised fault leaves, after which
nothing more of the operation happens (R165). -/
inductive Result (α : Type) where
  | done (a : α) (s : State)
  | raised (s : State)
  deriving DecidableEq, Repr

/-- One procedure after another; a raised fault ends both. -/
def Result.andThen {α β : Type} (r : Result α) (f : α → State → Result β) : Result β :=
  match r with
  | .done a s => f a s
  | .raised s => .raised s

/-- The state a procedure leaves. -/
def Result.state {α : Type} (r : Result α) : State :=
  match r with
  | .done _ s => s
  | .raised s => s

/-- `writeSignals(clock, mosi, chipSelect, misoEnable)`: one write of all four lines, never a read-modify-write (R90). -/
def writeSignals (clock mosi chipSelect misoEnable : Bool) (s : State) : State :=
  { s with
    sig := ⟨clock, mosi, chipSelect, misoEnable⟩
    trace := .write ⟨clock, mosi, chipSelect, misoEnable⟩ :: s.trace }

/-- The level of the data-in line now: the environment's (R29). It may depend on every event before it. -/
def misoLevel (s : State) : Bool :=
  match s.misoIn with
  | [] => Config.misoLevel s.trace
  | b :: _ => b

/-- The state after `readMiso`: no register of the block changes (R91). -/
def afterRead (s : State) : State :=
  { s with
    misoIn := s.misoIn.tail
    trace := .read (misoLevel s) :: s.trace }

/-- `readMiso() -> bit` (R91). -/
def readMiso (s : State) : Bool × State := (misoLevel s, afterRead s)

/-- A write of the mode-select register (R13, R150, R151). -/
def selectMode (m : AccessMode) (s : State) : State :=
  { s with
    mode := modeAfter m
    trace := .selectMode m :: s.trace }

/-- The events of one delay point: no call is made for 0 ms (R152). -/
def delayEvents (ms : Nat) : List Event := if ms = 0 then [] else [.delay ms]

/-- A delay point of `init`: it changes no register and no pin (R152, R176). -/
def delayPoint (ms : Nat) (s : State) : State := { s with trace := delayEvents ms ++ s.trace }

/-- `ADDR <- address` (R16). -/
def loadAddr (addr : Address) (s : State) : State := { s with addr := addr }

/-- `LEN <- length` (R16). -/
def loadLen (len : Length) (s : State) : State := { s with len := len }

/-- `RBUF[k..] <- bytes`, in arrival order (R17, R69). -/
def storeResponse (k : Nat) (bytes : List Byte) (s : State) : State := { s with rbuf := storeFrom s.rbuf k bytes }

/-- `BUSY <- status[0]` (R19, R124). -/
def storeBusy (status : Byte) (s : State) : State := { s with busy := some (busyFlag status) }

/-- `RC <- 0` (R19, R150). -/
def storeSuccess (s : State) : State := { s with rc := some Config.rcSuccess }

/-- Fault entry, `raise Fault(cause)` (R165): `FAULT` and `FCAUSE` are written if `FAULT` was 0; `SEQ` is idle; no event
and no other register. There is no return from it (R166). -/
def raiseFault (cause : FaultCause) (s : State) : State :=
  { s with
    fault := true
    fcause := if s.fault then s.fcause else cause
    seq := .idle }

/-- Reset (R190): every register at the value of 10_state.md R32, no event, and no effect on the environment (R191).
The unspecified values are free anew at each reset (log 1, log 2, log 13). -/
def applyReset (s : State) : State :=
  { State.reset with
    sig := Config.resetSignals (s.resets + 1) s.trace
    acc := Config.resetAcc (s.resets + 1) s.trace
    addr := Config.resetAddr (s.resets + 1) s.trace
    len := Config.resetLen (s.resets + 1) s.trace
    misoIn := s.misoIn
    trace := s.trace
    caller := s.caller
    frameSlot := s.frameSlot
    resets := s.resets + 1 }

end Sys2Proof.Machine
end

