-- ==== Sys2Proof/Machine/Transport.lean ====
section
/-! DEFINITION. The Bit Transport (spec/41_bit_transport.md): `transmitByte` R100 and `receiveByte` R101. -/

namespace Sys2Proof.Machine

/-- The three writes of one transmitted bit: MOSI with CLOCK low, CLOCK high, CLOCK low (R100). -/
def transmitBit (b : Bool) (s : State) : State :=
  writeSignals false b false false (writeSignals true b false false (writeSignals false b false false s))

/-- The bits `n-1` down to 0 of a byte, in that order (R100, 20_memory.md R42). -/
def transmitBits (v : Byte) (n : Nat) (s : State) : State :=
  match n with
  | 0 => s
  | n + 1 => transmitBits v n (transmitBit (byteBit v n) s)

/-- `transmitByte(v)`; outside a transaction it is the fault F_FRAME (R100, 60_exceptions.md R162). -/
def transmitByte (v : Byte) (s : State) : Result Unit :=
  match s.framer with
  | .active => .done () (transmitBits v 8 s)
  | .idle => .raised (raiseFault .frame s)

/-- `bit <- readMiso(); ACC <- trunc_8((ACC << 1) | bit)` (R101). -/
def sampleBit (s : State) : State :=
  { (readMiso s).2 with acc := shiftIn s.acc (readMiso s).1 }

/-- One received bit: raise CLOCK, sample, lower CLOCK; the order is normative (R101, R103). -/
def receiveBit (s : State) : State :=
  writeSignals false false false true (sampleBit (writeSignals true false false true s))

/-- `n` received bits. -/
def receiveBits (n : Nat) (s : State) : State :=
  match n with
  | 0 => s
  | n + 1 => receiveBits n (receiveBit s)

/-- The set-up of a received byte: MISO_ENABLE asserted with CLOCK low, `ACC <- 0` (R101). -/
def startReceive (s : State) : State :=
  { writeSignals false false false true s with acc := 0x00#8 }

/-- `receiveByte() -> byte`; outside a transaction it is the fault F_FRAME (R101, 60_exceptions.md R162). -/
def receiveByte (s : State) : Result Byte :=
  match s.framer with
  | .active => .done (receiveBits 8 (startReceive s)).acc (receiveBits 8 (startReceive s))
  | .idle => .raised (raiseFault .frame s)

end Sys2Proof.Machine
end

