-- ==== Sys2Proof/Machine/Framing.lean ====
section
/-! DEFINITION. Transaction Framing (spec/42_transaction_framing.md): `beginTransaction` R110, `endTransaction` R111, the
`frame` procedure R113. -/

namespace Sys2Proof.Machine

/-- `beginTransaction()`: CHIP_SELECT low with CLOCK low in one write; F_NEST if a transaction is in progress (R110). -/
def beginTransaction (s : State) : Result Unit :=
  match s.framer with
  | .idle => .done () { writeSignals false false false false s with framer := .active }
  | .active => .raised (raiseFault .nest s)

/-- `endTransaction()`: CHIP_SELECT high with CLOCK low in one write; F_NEST if none is in progress (R111). -/
def endTransaction (s : State) : Result Unit :=
  match s.framer with
  | .active => .done () { writeSignals false false true false s with framer := .idle }
  | .idle => .raised (raiseFault .nest s)

/-- `for k = 0 to T-1: transmitByte(t[k])` (R113). -/
def transmitBytes (bytes : List Byte) (s : State) : Result Unit :=
  match bytes with
  | [] => .done () s
  | b :: rest => (transmitByte b s).andThen fun _ s1 => transmitBytes rest s1

/-- `for k = 0 to Q-1: q[k] <- receiveByte()` (R113). -/
def receiveBytes (count : Nat) (s : State) : Result (List Byte) :=
  match count with
  | 0 => .done [] s
  | n + 1 =>
    (receiveByte s).andThen fun b s1 =>
      (receiveBytes n s1).andThen fun rest s2 => .done (b :: rest) s2

/-- `frame(t[0..T-1], Q) -> q[0..Q-1]`: one transaction (R113). -/
def frame (bytes : List Byte) (count : Nat) (s : State) : Result (List Byte) :=
  (beginTransaction s).andThen fun _ s1 =>
    (transmitBytes bytes s1).andThen fun _ s2 =>
      (receiveBytes count s2).andThen fun q s3 =>
        (endTransaction s3).andThen fun _ s4 => .done q s4

/-- The frame of a row of the descriptor table (30_encoding.md R63, R64). -/
def sendFrame (f : FrameName) (addr : Address) (payload : List Byte) (s : State) : Result (List Byte) :=
  frame (frameBytes f addr payload) (descriptor f).received s

end Sys2Proof.Machine
end

