-- ==== Sys2Proof/Machine/Accept.lean ====
section
/-! DEFINITION. Accepting an instruction: the idle sequencer, the fault checks in their order, and the loading of the
operand registers (spec/60_exceptions.md R167, spec/10_state.md R16, spec/43_command_protocol.md R134). -/

namespace Sys2Proof.Machine

/-- Which commands need Bit-Bang mode: all but `init` and `teardown` (60_exceptions.md R161, R170). -/
def needsBitBang (op : HostOp) : Bool :=
  match op with
  | .init => false
  | .teardown => false
  | .isBusy => true
  | .identify => true
  | .readUniqueId => true
  | .beginErase4K => true
  | .beginErase32K => true
  | .beginErase64K => true
  | .beginWrite => true
  | .hold => true
  | .unhold => true

/-- The operand check: only `beginWrite` has one (R163). -/
def operandFault (op : HostOp) (len : Length) (s : State) : Option FaultCause :=
  match op with
  | .init => none
  | .teardown => none
  | .isBusy => none
  | .identify => none
  | .readUniqueId => none
  | .beginErase4K => none
  | .beginErase32K => none
  | .beginErase64K => none
  | .beginWrite => (missingPayload len s.pbuf).map .operand
  | .hold => none
  | .unhold => none

/-- The first fault check that applies to a command, if any: F_MODE, then F_OPERAND (R167). F_RESERVED_OP stands before
both: a reserved code is an instruction of its own, which raises it. -/
def admissionFault (op : HostOp) (len : Length) (s : State) : Option FaultCause :=
  if needsBitBang op ∧ s.mode ≠ .bitBang then some (.mode op.code) else operandFault op len s

/-- The operand registers a command loads once, after the checks and before its first event (10_state.md R16). -/
def loadOperands (op : HostOp) (len : Length) (addr : Address) (s : State) : State :=
  match op with
  | .init => s
  | .teardown => s
  | .isBusy => s
  | .identify => s
  | .readUniqueId => s
  | .beginErase4K => loadAddr addr s
  | .beginErase32K => loadAddr addr s
  | .beginErase64K => loadAddr addr s
  | .beginWrite => loadLen len (loadAddr addr s)
  | .hold => s
  | .unhold => s

/-- An instruction is accepted only while the sequencer is idle; otherwise there is no step (D29, U6; log 9). -/
def whenIdle (s : State) (after : State) : Host.Outcome State Fault Refusal :=
  match s.seq with
  | .idle => .next after
  | .running _ _ => .fault .commandInProgress

/-- A host command seen by the host, as one step (D24): the checks, then either fault entry, a next state in which the
command did nothing else (R165, R167), or the operands loaded and the whole operation. -/
def hostCommand (op : HostOp) (len : Length) (addr : Address) (body : State → Result Unit) (s : State) :
    Host.Outcome State Fault Refusal :=
  whenIdle s
    (match admissionFault op len s with
    | some cause => raiseFault cause s
    | none => (body (loadOperands op len addr s)).state)

end Sys2Proof.Machine
end

