-- ==== Sys2Proof/Machine/Frames.lean ====
section
/-! DEFINITION. The twelve wire frames of spec/30_encoding.md R63, each as one transaction of its own
(spec/42_transaction_framing.md R113). No host command is one bare frame by this road: the frame slot of the state is the
model's own (log 7). A frame checks no mode: only a host command does, when it is accepted (spec/60_exceptions.md R161).
A received byte goes where R69 and the frame's row put it. -/

namespace Sys2Proof.Machine

/-- One frame, whose response nothing keeps. -/
def sendOnly (f : FrameName) (addr : Address) (payload : List Byte) (s : State) : Host.Outcome State Fault Refusal :=
  whenIdle s (sendFrame f addr payload s).state

/-- One frame, whose response goes to the response buffer from entry `k` on (R69, 10_state.md R17). -/
def sendAndStore (f : FrameName) (k : Nat) (s : State) : Host.Outcome State Fault Refusal :=
  whenIdle s ((sendFrame f 0 [] s).andThen fun q s1 => .done () (storeResponse k q s1)).state

/-- IDENT_A: two bytes to `RBUF[0..1]` (R63, R69). -/
def execIdentA (s : State) : Host.Outcome State Fault Refusal := sendAndStore .identA 0 s

/-- IDENT_B: three bytes to `RBUF[2..4]` (R63, R69). -/
def execIdentB (s : State) : Host.Outcome State Fault Refusal := sendAndStore .identB 2 s

/-- READ_UID: eight bytes to `RBUF[0..7]` (R63, R69). -/
def execReadUid (s : State) : Host.Outcome State Fault Refusal := sendAndStore .readUid 0 s

/-- READ_STATUS: bit 0 of the status byte is kept, in `BUSY` (R69; log 7). -/
def execReadStatus (s : State) : Host.Outcome State Fault Refusal :=
  whenIdle s ((sendFrame .readStatus 0 [] s).andThen fun q s1 => .done () (storeBusy (q.headD 0x00#8) s1)).state

/-- WRITE_ENABLE (R63, 43_command_protocol.md R122). -/
def execWriteEnable (s : State) : Host.Outcome State Fault Refusal := sendOnly .writeEnable 0 [] s

/-- ERASE_4K (R63, R66). -/
def execErase4K (addr : Address) (s : State) : Host.Outcome State Fault Refusal := sendOnly .erase4K addr [] s

/-- ERASE_32K (R63, R66). -/
def execErase32K (addr : Address) (s : State) : Host.Outcome State Fault Refusal := sendOnly .erase32K addr [] s

/-- ERASE_64K (R63, R66). -/
def execErase64K (addr : Address) (s : State) : Host.Outcome State Fault Refusal := sendOnly .erase64K addr [] s

/-- PAGE_PROGRAM: at most 256 payload bytes are sent (R63, R67). -/
def execPageProgram (addr : Address) (payload : List Byte) (s : State) : Host.Outcome State Fault Refusal :=
  sendOnly .pageProgram addr payload s

/-- EXIT_EXT (R63, 43_command_protocol.md R123). -/
def execExitExt (s : State) : Host.Outcome State Fault Refusal := sendOnly .exitExt 0 [] s

/-- WAKE (R63, 43_command_protocol.md R123). -/
def execWake (s : State) : Host.Outcome State Fault Refusal := sendOnly .wake 0 [] s

/-- HOLD (R63, 43_command_protocol.md R131). -/
def execHoldFrame (s : State) : Host.Outcome State Fault Refusal := sendOnly .hold 0 [] s

end Sys2Proof.Machine
end

