-- ==== Sys2Proof/Machine/Protocol.lean ====
section
/-! DEFINITION. The Command Protocol (spec/43_command_protocol.md): the internal operations R121 to R123 and the nine host
commands R124 to R132. The procedures follow the rules' pseudocode after the fault checks, which `hostCommand` makes. -/

namespace Sys2Proof.Machine

/-! ### Internal operations (level 2) -/

/-- `readStatus() -> byte` (R121). -/
def readStatus (s : State) : Result Byte :=
  (sendFrame .readStatus 0 [] s).andThen fun q s1 => .done (q.headD 0x00#8) s1

/-- `writeEnable()` (R122). -/
def writeEnable (s : State) : Result Unit :=
  (sendFrame .writeEnable 0 [] s).andThen fun _ s1 => .done () s1

/-- `resetWake()` with the delay point MID of `init` between its two frames (R123, 44_mode_controller.md R152). -/
def resetWake (midMs : Nat) (s : State) : Result Unit :=
  (sendFrame .exitExt 0 [] s).andThen fun _ s1 =>
    (sendFrame .wake 0 [] (delayPoint midMs s1)).andThen fun _ s2 => .done () s2

/-- The write-enable frame, then one frame that names the flash address in `ADDR` (R127 to R130, R135). -/
def enableThen (f : FrameName) (payload : List Byte) (s : State) : Result Unit :=
  (writeEnable s).andThen fun _ s1 =>
    (sendFrame f s1.addr payload s1).andThen fun _ s2 => .done () s2

/-! ### Host commands (level 3), after their checks -/

/-- `isBusy()`: bit 0 of the status byte, which is kept nowhere else (R124). -/
def isBusy (s : State) : Result Unit :=
  (readStatus s).andThen fun status s1 => .done () (storeBusy status s1)

/-- `identify(buffer)`: two frames, five bytes (R125). -/
def identify (s : State) : Result Unit :=
  (sendFrame .identA 0 [] s).andThen fun a s1 =>
    (sendFrame .identB 0 [] (storeResponse 0 a s1)).andThen fun b s2 => .done () (storeResponse 2 b s2)

/-- `readUniqueId(buffer)`: eight bytes in arrival order (R126). -/
def readUniqueId (s : State) : Result Unit :=
  (sendFrame .readUid 0 [] s).andThen fun q s1 => .done () (storeResponse 0 q s1)

/-- `beginErase4K(address)` (R127). -/
def beginErase4K (s : State) : Result Unit := enableThen .erase4K [] s

/-- `beginErase32K(address)` (R128). -/
def beginErase32K (s : State) : Result Unit := enableThen .erase32K [] s

/-- `beginErase64K(address)` (R129). -/
def beginErase64K (s : State) : Result Unit := enableThen .erase64K [] s

/-- `beginWrite(address, data, length)` (R130). -/
def beginWrite (s : State) : Result Unit := enableThen .pageProgram (payloadBytes s.len s.pbuf) s

/-- `hold()` (R131). -/
def hold (s : State) : Result Unit :=
  (sendFrame .hold 0 [] s).andThen fun _ s1 => .done () s1

/-- `unhold()` (R132). -/
def unhold (s : State) : Result Unit :=
  (sendFrame .wake 0 [] s).andThen fun _ s1 => .done () s1

/-! ### The meanings -/

/-- ISBUSY, host op 0x2 (R124). -/
def execIsBusy (len : Length) (addr : Address) (s : State) : Host.Outcome State Fault Refusal :=
  hostCommand .isBusy len addr isBusy s

/-- IDENTIFY, host op 0x3 (R125). -/
def execIdentify (len : Length) (addr : Address) (s : State) : Host.Outcome State Fault Refusal :=
  hostCommand .identify len addr identify s

/-- READUNIQUEID, host op 0x4 (R126). -/
def execReadUniqueId (len : Length) (addr : Address) (s : State) : Host.Outcome State Fault Refusal :=
  hostCommand .readUniqueId len addr readUniqueId s

/-- BEGINERASE4K, host op 0x5 (R127). -/
def execBeginErase4K (len : Length) (addr : Address) (s : State) : Host.Outcome State Fault Refusal :=
  hostCommand .beginErase4K len addr beginErase4K s

/-- BEGINERASE32K, host op 0x6 (R128). -/
def execBeginErase32K (len : Length) (addr : Address) (s : State) : Host.Outcome State Fault Refusal :=
  hostCommand .beginErase32K len addr beginErase32K s

/-- BEGINERASE64K, host op 0x7 (R129). -/
def execBeginErase64K (len : Length) (addr : Address) (s : State) : Host.Outcome State Fault Refusal :=
  hostCommand .beginErase64K len addr beginErase64K s

/-- BEGINWRITE, host op 0x8 (R130). -/
def execBeginWrite (len : Length) (addr : Address) (s : State) : Host.Outcome State Fault Refusal :=
  hostCommand .beginWrite len addr beginWrite s

/-- HOLD, host op 0x9 (R131). -/
def execHold (len : Length) (addr : Address) (s : State) : Host.Outcome State Fault Refusal :=
  hostCommand .hold len addr hold s

/-- UNHOLD, host op 0xA (R132). -/
def execUnhold (len : Length) (addr : Address) (s : State) : Host.Outcome State Fault Refusal :=
  hostCommand .unhold len addr unhold s

end Sys2Proof.Machine
end

