-- ==== Sys2Proof/Machine/Mode.lean ====
section
/-! DEFINITION. The Mode Controller (spec/44_mode_controller.md): `init` R150 and `teardown` R151. -/

namespace Sys2Proof.Machine

/-- `init() -> status` for given delay durations: the signal write, the mode write, the Reset/Wake frames with the three
delay points around them, the success code (R150, R152). CLOCK of the first write is `P_INIT_CLOCK` = 0 (90_conflicts.md
C1; log 11). -/
def initWith (d : Delays) (s : State) : Result Unit :=
  (resetWake d.midMs
    (delayPoint d.preMs (selectMode .bitBang (writeSignals Config.initClock false true false s)))).andThen fun _ s1 =>
      .done () (storeSuccess (delayPoint d.postMs s1))

/-- `init()` with the OPEN delays of the machine (R152; log 10). -/
def initCommand (s : State) : Result Unit := initWith Config.delays s

/-- `teardown()`: one mode write, nothing else (R151). -/
def teardown (s : State) : Result Unit := .done () (selectMode .memoryMapped s)

/-- INIT, host op 0x0 (R150). -/
def execInit (len : Length) (addr : Address) (s : State) : Host.Outcome State Fault Refusal :=
  hostCommand .init len addr initCommand s

/-- TEARDOWN, host op 0x1 (R151). -/
def execTeardown (len : Length) (addr : Address) (s : State) : Host.Outcome State Fault Refusal :=
  hostCommand .teardown len addr teardown s

end Sys2Proof.Machine
end

