-- ==== Sys2Proof/Machine/Reserved.lean ====
section
/-! DEFINITION. The reserved host op codes 0xB to 0xF (spec/30_encoding.md R71 (a), spec/60_exceptions.md R160): each takes
the fault F_RESERVED_OP, which is checked before every other (R167). -/

namespace Sys2Proof.Machine

/-- RESERVED_0XB, host op 0xB (R160). -/
def execReservedB (_len : Length) (_addr : Address) (s : State) : Host.Outcome State Fault Refusal :=
  whenIdle s (raiseFault (.reservedOp 0xB#4) s)

/-- RESERVED_0XC_0XF, host ops 0xC to 0xF; `low` is the low half of the op field (R160). -/
def execReservedCF (low : BitVec 2) (_len : Length) (_addr : Address) (s : State) : Host.Outcome State Fault Refusal :=
  whenIdle s (raiseFault (.reservedOp (0b11#2 ++ low)) s)

end Sys2Proof.Machine
end

