-- ==== Sys2Proof/Machine/Dispatch.lean ====
section
/-! DEFINITION. One arm for each constructor of `Instr`. -/

namespace Sys2Proof.Machine

def exec (i : Instr) (s : State) : Host.Outcome State Fault Refusal :=
  match i with
  -- host commands
  | .init len addr => Sys2Proof.Machine.execInit len addr s
  | .teardown len addr => Sys2Proof.Machine.execTeardown len addr s
  | .isBusy len addr => Sys2Proof.Machine.execIsBusy len addr s
  | .identify len addr => Sys2Proof.Machine.execIdentify len addr s
  | .readUniqueId len addr => Sys2Proof.Machine.execReadUniqueId len addr s
  | .beginErase4K len addr => Sys2Proof.Machine.execBeginErase4K len addr s
  | .beginErase32K len addr => Sys2Proof.Machine.execBeginErase32K len addr s
  | .beginErase64K len addr => Sys2Proof.Machine.execBeginErase64K len addr s
  | .beginWrite len addr => Sys2Proof.Machine.execBeginWrite len addr s
  | .hold len addr => Sys2Proof.Machine.execHold len addr s
  | .unhold len addr => Sys2Proof.Machine.execUnhold len addr s
  -- reserved op codes
  | .reservedB len addr => Sys2Proof.Machine.execReservedB len addr s
  | .reservedCF low len addr => Sys2Proof.Machine.execReservedCF low len addr s
  -- wire frames
  | .identA => Sys2Proof.Machine.execIdentA s
  | .identB => Sys2Proof.Machine.execIdentB s
  | .readUid => Sys2Proof.Machine.execReadUid s
  | .readStatus => Sys2Proof.Machine.execReadStatus s
  | .writeEnable => Sys2Proof.Machine.execWriteEnable s
  | .erase4K addr => Sys2Proof.Machine.execErase4K addr s
  | .erase32K addr => Sys2Proof.Machine.execErase32K addr s
  | .erase64K addr => Sys2Proof.Machine.execErase64K addr s
  | .pageProgram addr payload => Sys2Proof.Machine.execPageProgram addr payload s
  | .exitExt => Sys2Proof.Machine.execExitExt s
  | .wake => Sys2Proof.Machine.execWake s
  | .holdFrame => Sys2Proof.Machine.execHoldFrame s

end Sys2Proof.Machine
end

