-- ==== Sys2Proof/Machine/Sequencer.lean ====
section
/-! DEFINITION. The event view of a host command (spec/10_state.md R20, D24): `SEQ = (op, k)` counts the events of the
command's list, and one step is one event. To the host a command is one step (`hostCommand`); the two views must agree. -/

namespace Sys2Proof.Machine

/-- An event of a command together with what the rule of its operation does at it. -/
inductive Micro where
  /-- A signal write and nothing else. -/
  | write (v : Signals)
  /-- The write of `beginTransaction` (R110). -/
  | openFrame
  /-- The write of `endTransaction` (R111). -/
  | closeFrame
  /-- The set-up write of `receiveByte`, which clears `ACC` (R101). -/
  | startReceive
  /-- The read of `receiveByte`, which shifts the bit into `ACC` (R101). -/
  | sample
  /-- The last write of `receiveByte`; the byte in `ACC` goes to `RBUF[dest]` where the operation keeps it (R69; log 16). -/
  | endReceive (dest : Option Nat)
  /-- The mode write of `init` or `teardown`. -/
  | selectMode (m : AccessMode)
  /-- A delay call of `init`. -/
  | delay (ms : Nat)
  deriving DecidableEq, Repr

/-- The entry of the response buffer a received byte goes to, if any. -/
def storeByte (dest : Option Nat) (s : State) : State :=
  match dest with
  | none => s
  | some k => storeResponse k [s.acc] s

/-- What one event does. -/
def Micro.run (m : Micro) (s : State) : Result Unit :=
  match m with
  | .write v => .done () (writeSignals v.clock v.mosi v.chipSelect v.misoEnable s)
  | .openFrame => beginTransaction s
  | .closeFrame => endTransaction s
  | .startReceive => .done () (Machine.startReceive s)
  | .sample => .done () (sampleBit s)
  | .endReceive dest => .done () (storeByte dest (writeSignals false false false true s))
  | .selectMode m => .done () (Machine.selectMode m s)
  | .delay ms => .done () (delayPoint ms s)

/-- The three events of one transmitted bit (R100). -/
def transmitBitMicros (b : Bool) : List Micro :=
  [.write ⟨false, b, false, false⟩, .write ⟨true, b, false, false⟩, .write ⟨false, b, false, false⟩]

/-- The events of the bits `n-1` down to 0 of a byte (R100). -/
def transmitMicros (v : Byte) (n : Nat) : List Micro :=
  match n with
  | 0 => []
  | n + 1 => transmitBitMicros (byteBit v n) ++ transmitMicros v n

/-- The events of `n + 1` received bits; the last one ends the byte (R101). -/
def receiveBitMicros (dest : Option Nat) (n : Nat) : List Micro :=
  match n with
  | 0 => [.write ⟨true, false, false, true⟩, .sample, .endReceive dest]
  | n + 1 =>
    [.write ⟨true, false, false, true⟩, .sample, .write ⟨false, false, false, true⟩] ++ receiveBitMicros dest n

/-- The events of `receiveByte` (R101). -/
def receiveMicros (dest : Option Nat) : List Micro := .startReceive :: receiveBitMicros dest 7

/-- The events of one frame (R113): its bytes, then one received byte for each destination. -/
def frameMicros (bytes : List Byte) (dests : List (Option Nat)) : List Micro :=
  .openFrame :: (bytes.flatMap (transmitMicros · 8) ++ dests.flatMap receiveMicros ++ [.closeFrame])

/-- The events of a delay point: none for 0 ms (R152). -/
def delayMicros (ms : Nat) : List Micro := if ms = 0 then [] else [.delay ms]

/-- Destinations `k`, …, `k + n - 1` of the response buffer. -/
def entries (k n : Nat) : List (Option Nat) := (List.range' k n).map some

/-- The write-enable frame, then one frame that names an address (R127 to R130). -/
def enableThenMicros (f : FrameName) (addr : Address) (payload : List Byte) : List Micro :=
  frameMicros (frameBytes .writeEnable 0 []) [] ++ frameMicros (frameBytes f addr payload) []

/-- The event list of a command, from the operand registers (R20; R124 to R132, R150, R151). -/
def commandMicros (d : Delays) (op : HostOp) (addr : Address) (len : Length) (pbuf : List Byte) : List Micro :=
  match op with
  | .init =>
    [.write ⟨Config.initClock, false, true, false⟩, .selectMode .bitBang] ++ delayMicros d.preMs
      ++ frameMicros (frameBytes .exitExt 0 []) [] ++ delayMicros d.midMs
      ++ frameMicros (frameBytes .wake 0 []) [] ++ delayMicros d.postMs
  | .teardown => [.selectMode .memoryMapped]
  | .isBusy => frameMicros (frameBytes .readStatus 0 []) [none]
  | .identify =>
    frameMicros (frameBytes .identA 0 []) (entries 0 2) ++ frameMicros (frameBytes .identB 0 []) (entries 2 3)
  | .readUniqueId => frameMicros (frameBytes .readUid 0 []) (entries 0 8)
  | .beginErase4K => enableThenMicros .erase4K addr []
  | .beginErase32K => enableThenMicros .erase32K addr []
  | .beginErase64K => enableThenMicros .erase64K addr []
  | .beginWrite => enableThenMicros .pageProgram addr (payloadBytes len pbuf)
  | .hold => frameMicros (frameBytes .hold 0 []) []
  | .unhold => frameMicros (frameBytes .wake 0 []) []

/-- The event list of the command in progress. -/
def eventsOf (d : Delays) (op : HostOp) (s : State) : List Micro := commandMicros d op s.addr s.len s.pbuf

/-- The results that become visible after the last event (R20): `BUSY` of `isBusy`, `RC` of `init`. -/
def storeResult (op : HostOp) (s : State) : State :=
  match op with
  | .init => storeSuccess s
  | .teardown => s
  | .isBusy => storeBusy s.acc s
  | .identify => s
  | .readUniqueId => s
  | .beginErase4K => s
  | .beginErase32K => s
  | .beginErase64K => s
  | .beginWrite => s
  | .hold => s
  | .unhold => s

/-- `SEQ` after event `k` of a list of `count` events: the next index, or idle with the results stored (R20). -/
def advance (op : HostOp) (k count : Nat) (s : State) : State :=
  if k + 1 < count then { s with seq := .running op (k + 1) } else { storeResult op s with seq := .idle }

/-- One event of the command in progress, for given delay durations. -/
def eventStepWith (d : Delays) (s : State) : Host.Outcome State Fault Refusal :=
  match s.seq with
  | .idle => .next s
  | .running op k =>
    match (eventsOf d op s)[k]? with
    | none => .fault .positionOutOfRange
    | some m =>
      match m.run s with
      | .done _ s1 => .next (advance op k (eventsOf d op s).length s1)
      | .raised s1 => .next s1

/-- One event of the command in progress. -/
def eventStep (s : State) : Host.Outcome State Fault Refusal := eventStepWith Config.delays s

/-- A command accepted in the event view: the same checks and the same loads as `hostCommand`, and `SEQ <- (op, 0)` in
place of the operation (R20). -/
def present (op : HostOp) (len : Length) (addr : Address) (s : State) : Host.Outcome State Fault Refusal :=
  whenIdle s
    (match admissionFault op len s with
    | some cause => raiseFault cause s
    | none => { loadOperands op len addr s with seq := .running op 0 })

/-- Event steps until the sequencer is idle, at most `n` of them. -/
def runEvents (n : Nat) (s : State) : Host.Outcome State Fault Refusal :=
  match n with
  | 0 => .next s
  | n + 1 =>
    match eventStep s with
    | .next s1 => runEvents n s1
    | .fault r => .fault r
    | .refused r => .refused r

end Sys2Proof.Machine
end

