-- ==== Sys2Proof/Machine/Fetch.lean ====
section
/-! DEFINITION. What the next step attends to, and how the caller's commands are written and presented
(spec/30_encoding.md R61, R72; spec/10_state.md R18, R20). -/

namespace Sys2Proof.Machine

/-- What the next step does. -/
inductive Todo where
  /-- The platform's reset (70_reset_and_hazards.md R190). -/
  | reset
  /-- The next event of the command in progress (10_state.md R20). -/
  | event
  /-- Nothing is presented: the block executes nothing (10_state.md section 7; log 18). -/
  | wait
  /-- A code, and the state once it is taken from where it stood. -/
  | run (c : Code) (taken : State)
  deriving DecidableEq, Repr

/-- The entries supplied with a command, from index 0: none without a payload, and no entry past 255 exists
(10_state.md R18, 60_exceptions.md R163). -/
def Request.entries (r : Request) : List Byte := (r.payload.getD []).take Config.pageMax

/-- Which commands have a payload operand: `beginWrite` alone (30_encoding.md R61, the column "uses `PBUF`"). -/
def Request.usesPayload (r : Request) : Bool := opField r.word == HostOp.beginWrite.code

/-- The payload that travels beside a command becomes the contents of `PBUF` before the command: afterwards entry `i` holds
a value exactly if it was supplied with this command, so nothing of an earlier payload is left (10_state.md R18, R31,
30_encoding.md R61, 60_exceptions.md R163). A command without a payload operand leaves `PBUF` alone (log 6). -/
def supplyPayload (r : Request) (s : State) : State := if r.usesPayload then { s with pbuf := r.entries } else s

/-- What the next step attends to: a reset first; then the command in progress (R20: no command is presented meanwhile);
then a bare frame (log 7); then the caller's next command. -/
def todo (s : State) : Todo :=
  if s.resetIn then .reset
  else
    match s.seq with
    | .running _ _ => .event
    | .idle =>
      match s.frameSlot with
      | some bytes => .run (.frame bytes) { s with frameSlot := none }
      | none =>
        match s.caller with
        | [] => .wait
        | r :: rest => .run (.host r.word) (supplyPayload r { s with caller := rest })

/-- A state whose next step runs the given code: no reset asked, the sequencer idle, and the code where that step takes
its next one. A host word is presented with the contents of `PBUF` as its payload (log 14). -/
def placeCode (c : Code) (s : State) : State :=
  match c with
  | .host w => { s with resetIn := false, seq := .idle, frameSlot := none, caller := ⟨w, some s.pbuf⟩ :: s.caller }
  | .frame bytes => { s with resetIn := false, seq := .idle, frameSlot := some bytes }

/-! ### The caller's program (R72) -/

/-- A call of the API in the spelling of R72. An address may be wider than 24 bits. -/
inductive Call where
  | init
  | teardown
  | isBusy
  | identify
  | readUniqueId
  | beginErase4K (address : Nat)
  | beginErase32K (address : Nat)
  | beginErase64K (address : Nat)
  | beginWrite (address : Nat) (data : List Byte) (length : Length)
  | hold
  | unhold
  deriving DecidableEq, Repr

/-- The command a call presents. An address is truncated to its low 24 bits (10_state.md R16, D12); fields a command does
not use are written 0. -/
def Call.request (c : Call) : Request :=
  match c with
  | .init => ⟨hostWord HostOp.init.code 0 0, none⟩
  | .teardown => ⟨hostWord HostOp.teardown.code 0 0, none⟩
  | .isBusy => ⟨hostWord HostOp.isBusy.code 0 0, none⟩
  | .identify => ⟨hostWord HostOp.identify.code 0 0, none⟩
  | .readUniqueId => ⟨hostWord HostOp.readUniqueId.code 0 0, none⟩
  | .beginErase4K a => ⟨hostWord HostOp.beginErase4K.code 0 (BitVec.ofNat 24 a), none⟩
  | .beginErase32K a => ⟨hostWord HostOp.beginErase32K.code 0 (BitVec.ofNat 24 a), none⟩
  | .beginErase64K a => ⟨hostWord HostOp.beginErase64K.code 0 (BitVec.ofNat 24 a), none⟩
  | .beginWrite a data n => ⟨hostWord HostOp.beginWrite.code n (BitVec.ofNat 24 a), some data⟩
  | .hold => ⟨hostWord HostOp.hold.code 0 0, none⟩
  | .unhold => ⟨hostWord HostOp.unhold.code 0 0, none⟩

/-- A program of the caller, one command a call, to be presented after what is already waiting (R72). -/
def State.withProgram (s : State) (calls : List Call) : State :=
  { s with caller := s.caller ++ calls.map Call.request }

end Sys2Proof.Machine
end

