-- ==== Sys2Proof/Machine/Step.lean ====
section
/-! DEFINITION. One step of the machine, and the state whose next step runs a given word. -/

namespace Sys2Proof.Machine

/-- One step: the platform's reset, or the next event of a command in progress, or nothing, or the next instruction, a
host command whole (D24). -/
def step (s : State) : Host.Outcome State Fault Refusal :=
  match todo s with
  | .reset => .next (applyReset s)
  | .event => eventStep s
  | .wait => .next s
  | .run c taken =>
    match decode c with
    | .ok i => exec i taken
    | .error why => .refused (.noSuchFrame why)

/-- `s` with a word of spec/opcode_table.json where `step` takes its next instruction (log 14). DESIGN CHOICE: R61 defines
no bit of a host word above 43; such bits of `w` are dropped, where `decodeTableWord` refuses the word (log 15). -/
def State.withFetchWord (s : State) (nbits w : Nat) : State := placeCode (tableCode nbits w) s

end Sys2Proof.Machine
end

