-- ==== Sys2Proof/Machine/Observe.lean ====
section
/-! DEFINITION. What an observer sees: the host's reads, the pins, the register accesses with their packed values, the
events in time order, and the wire decoder of spec/95_test_vectors.md section 1.1. Nothing here is read by a step. -/

namespace Sys2Proof.Machine

/-! ### The host's reads (10_state.md R17, R19) -/

/-- `RBUF[i]` as the host reads it; an unwritten entry answers none, never 0 (R17, U13). -/
def State.hostReadRbuf (s : State) (i : Nat) : Option Byte := (s.rbuf[i]?).join

/-- `BUSY` as the host reads it (R19, U13). -/
def State.hostReadBusy (s : State) : Option Bool := s.busy

/-- `RC` as the host reads it (R19, U13). -/
def State.hostReadRc (s : State) : Option Nat := s.rc

/-- `PBUF[i]`, if the host supplied it (R18). -/
def State.pbufEntry (s : State) (i : Nat) : Option Byte := s.pbuf[i]?

/-! ### The pins (10_state.md R14) -/

/-- The levels of the four output pins and of the MOSI wire; `none` where the spec gives no level (U12). -/
structure Pins where
  clock : Option Bool
  mosi : Option Bool
  chipSelect : Option Bool
  misoEnable : Option Bool
  /-- The wire behind the bus driver, which MISO_ENABLE = 1 makes it let go of. -/
  mosiWire : Option Bool
  deriving DecidableEq, Repr

/-- The pins follow `SIG` in Bit-Bang mode; otherwise they belong to the memory-mapped engine (R14, U12; log 19). -/
def State.pins (s : State) : Pins :=
  match s.mode with
  | .bitBang =>
    { clock := some s.sig.clock
      mosi := some s.sig.mosi
      chipSelect := some s.sig.chipSelect
      misoEnable := some s.sig.misoEnable
      mosiWire := if s.sig.misoEnable then none else some s.sig.mosi }
  | .memoryMapped => ⟨none, none, none, none, none⟩
  | .unknown => ⟨none, none, none, none, none⟩

/-! ### The register accesses (10_state.md R11 to R13, 40_signal_driver.md R90, R91, 20_memory.md R41) -/

/-- `P(c,m,s,e)`: bit 0 MOSI, bit 1 CLOCK, bit 2 CHIP_SELECT, bit 3 MISO_ENABLE, bits 7:4 written as 0 (R11). -/
def Signals.packed (v : Signals) : Byte :=
  ((BitVec.ofBool v.misoEnable).setWidth 8 <<< 3) ||| ((BitVec.ofBool v.chipSelect).setWidth 8 <<< 2)
    ||| ((BitVec.ofBool v.clock).setWidth 8 <<< 1) ||| (BitVec.ofBool v.mosi).setWidth 8

/-- The value of a mode write: 1 = Bit-Bang, 0 = Memory-Mapped, bits 7:1 written as 0 (R13). -/
def modeValue (m : AccessMode) : Byte :=
  match m with
  | .memoryMapped => 0x00#8
  | .bitBang => 0x01#8

/-- `SIG_ADDR`, `MISO_ADDR`, `MODE_ADDR`: OPEN parameters, which the register view takes as an argument (R41, D6; log 12). -/
structure RegisterMap where
  sigAddr : Nat
  misoAddr : Nat
  modeAddr : Nat
  deriving DecidableEq, Repr

/-- The three addresses are pairwise distinct (R41). -/
def RegisterMap.distinct (m : RegisterMap) : Bool :=
  m.sigAddr != m.misoAddr && m.sigAddr != m.modeAddr && m.misoAddr != m.modeAddr

/-- One access of the hardware register interface: a whole register, one byte (20_memory.md R47). -/
inductive Access where
  | memWrite (addr : Nat) (value : Byte)
  | memRead (addr : Nat) (value : Byte)
  deriving DecidableEq, Repr

/-- The access an event is; a delay call is none (R90, R91, R150, R151). -/
def Event.access (m : RegisterMap) (e : Event) : Option Access :=
  match e with
  | .write v => some (.memWrite m.sigAddr (Signals.packed v))
  | .read b => some (.memRead m.misoAddr ((BitVec.ofBool b).setWidth 8))
  | .selectMode x => some (.memWrite m.modeAddr (modeValue x))
  | .delay _ => none

/-! ### Events in time order (00_scope.md R6) -/

/-- The events so far, oldest first. -/
def State.events (s : State) : List Event := s.trace.reverse

/-- `W(c,m,s,e)`. -/
def evW (c m s e : Bool) : Event := .write ⟨c, m, s, e⟩

/-- The events of one transmitted bit (41_bit_transport.md R100). -/
def bitEvents (b : Bool) : List Event := [evW false b false false, evW true b false false, evW false b false false]

/-- The bits of a byte in the order sent, bit 7 first (20_memory.md R42). -/
def byteBits (v : Byte) : List Bool :=
  [byteBit v 7, byteBit v 6, byteBit v 5, byteBit v 4, byteBit v 3, byteBit v 2, byteBit v 1, byteBit v 0]

/-- The events of `transmitByte` (R100). -/
def byteEvents (v : Byte) : List Event := (byteBits v).flatMap bitEvents

/-- The events of one received bit: raise, read, lower (R101, R103). -/
def sampleEvents (b : Bool) : List Event := [evW true false false true, .read b, evW false false false true]

/-- The events of `receiveByte` for the samples it takes (R101). -/
def receiveEvents (bits : List Bool) : List Event := evW false false false true :: bits.flatMap sampleEvents

/-- The samples of byte `k`, eight to a byte. -/
def sampleByte (bits : List Bool) (k : Nat) : List Bool := (bits.drop (8 * k)).take 8

/-- A byte from its samples, the first one in bit 7 (R101). -/
def byteOfBits (bits : List Bool) : Byte := bits.foldl shiftIn 0x00#8

/-- The events of one frame that sends `bytes` and receives `count` bytes with the given samples (R113). -/
def frameEvents (bytes : List Byte) (count : Nat) (bits : List Bool) : List Event :=
  [evW false false false false] ++ bytes.flatMap byteEvents
    ++ (List.range count).flatMap (fun k => receiveEvents (sampleByte bits k)) ++ [evW false false true false]

/-- The bytes received, in arrival order. -/
def receivedBytes (count : Nat) (bits : List Bool) : List Byte :=
  (List.range count).map fun k => byteOfBits (sampleByte bits k)

/-- The levels the reads of a list of events returned, in time order. -/
def samples (es : List Event) : List Bool :=
  es.filterMap fun e => match e with
    | .write _ => none
    | .read b => some b
    | .selectMode _ => none
    | .delay _ => none

/-- How many signal writes, reads, mode writes and delay calls a list of events holds (70_reset_and_hazards.md R215). -/
structure Counts where
  writes : Nat
  reads : Nat
  modeWrites : Nat
  delays : Nat
  deriving DecidableEq, Repr

/-- One event more. -/
def Counts.add (n : Counts) (e : Event) : Counts :=
  match e with
  | .write _ => { n with writes := n.writes + 1 }
  | .read _ => { n with reads := n.reads + 1 }
  | .selectMode _ => { n with modeWrites := n.modeWrites + 1 }
  | .delay _ => { n with delays := n.delays + 1 }

/-- The counts of a list of events. -/
def countEvents (es : List Event) : Counts := es.foldl Counts.add ⟨0, 0, 0, 0⟩

/-- A list of events with the levels read left out: what does not depend on the device. -/
def Event.withoutLevel (e : Event) : Event :=
  match e with
  | .write v => .write v
  | .read _ => .read false
  | .selectMode m => .selectMode m
  | .delay ms => .delay ms

/-! ### The wire decoder (95_test_vectors.md section 1.1) -/

/-- The wire decoder's position: the last level of CLOCK, whether CHIP_SELECT is low, the bits of the current
transaction, and the transactions closed, oldest first. -/
structure Wire where
  clock : Bool
  selected : Bool
  bits : List Bool
  done : List (List Byte)
  deriving DecidableEq, Repr

/-- Bits to bytes, eight to a byte, most significant first. Bits that fill no byte are dropped. -/
def bytesOfBits (bits : List Bool) : List Byte :=
  match bits with
  | b7 :: b6 :: b5 :: b4 :: b3 :: b2 :: b1 :: b0 :: rest =>
    byteOfBits [b7, b6, b5, b4, b3, b2, b1, b0] :: bytesOfBits rest
  | _ => []

/-- One signal write seen on the wire. -/
def Wire.write (w : Wire) (v : Signals) : Wire :=
  if v.chipSelect then
    { clock := v.clock, selected := false, bits := [],
      done := if w.selected then w.done ++ [bytesOfBits w.bits] else w.done }
  else
    { clock := v.clock, selected := true, done := w.done,
      bits := if !v.misoEnable && !w.clock && v.clock then w.bits ++ [v.mosi] else w.bits }

/-- One event seen on the wire: only signal writes show. -/
def Wire.see (w : Wire) (e : Event) : Wire :=
  match e with
  | .write v => w.write v
  | .read _ => w
  | .selectMode _ => w
  | .delay _ => w

/-- The wire with CLOCK low and no transaction open. -/
def Wire.rest : Wire := ⟨false, false, [], []⟩

/-- The transactions of a list of events, each the list of its transmitted bytes. -/
def wireDecode (es : List Event) : List (List Byte) := (es.foldl Wire.see Wire.rest).done

end Sys2Proof.Machine
end

