-- ==== Sys2Proof/Safety.lean ====
section
/-! DEFINITION. What claims about BBSPI are stated in: a state that is ready for a command, the state invariant, and the
line discipline of spec/70_reset_and_hazards.md's built-in hazards. -/

namespace Sys2Proof.Machine

/-- `SIG` at rest: CLOCK 0, MOSI 0, CHIP_SELECT 1, MISO_ENABLE 0 (10_state.md R23). -/
def Signals.rest : Signals := ⟨false, false, true, false⟩

/-- Idle, with no transaction in progress. -/
structure State.Idle (s : State) : Prop where
  seq : s.seq = .idle
  framer : s.framer = .idle

/-- Idle and in Bit-Bang mode: a Command Protocol command executes (43_command_protocol.md R120). -/
structure State.Ready (s : State) : Prop extends s.Idle where
  mode : s.mode = .bitBang

/-- What `beginWrite` needs beside a ready state: the payload it will read (60_exceptions.md R163). -/
def State.Supplied (s : State) (len : Length) : Prop := payloadCount len ≤ s.pbuf.length

/-- A good final state: no fault was raised since reset (60_exceptions.md R165). -/
def State.Good (s : State) : Prop := s.fault = false

/-! ### What a frame leaves -/

/-- `t` has emitted the events `es` since `s`, oldest first. -/
def State.Emitted (s t : State) (es : List Event) : Prop := t.trace = es.reverse ++ s.trace

/-- The MOSI level at each CLOCK pulse of a list of events: what a device that samples at the rising edge reads
(41_bit_transport.md R100, 95_test_vectors.md section 1.1). -/
def pulses (es : List Event) : List Bool :=
  es.filterMap fun e => match e with
    | .write v => if v.clock then some v.mosi else none
    | .read _ => none
    | .selectMode _ => none
    | .delay _ => none

/-- The last value the events of a list write to `SIG`, or `v` if they write none. -/
def lastWritten (v : Signals) (es : List Event) : Signals :=
  es.foldl (init := v) fun p e => match e with
    | .write w => w
    | .read _ => p
    | .selectMode _ => p
    | .delay _ => p

/-- `bits` are `n` levels read from `s` on: the environment's own, in order, as far as it gives them (10_state.md R29). -/
def State.Drew (s : State) (n : Nat) (bits : List Bool) : Prop :=
  bits.length = n ∧ bits.take s.misoIn.length = s.misoIn.take n

/-- The state after one frame that sends `bytes` and receives `count` bytes with the samples `bits`: `SIG` at rest, `ACC`
with the last byte received, the events, the environment's levels used up, and nothing else (42_transaction_framing.md
R113, 43_command_protocol.md R134). -/
def State.afterFrame (s : State) (bytes : List Byte) (count : Nat) (bits : List Bool) : State :=
  { s with
    sig := Signals.rest
    acc := (receivedBytes count bits).getLastD s.acc
    misoIn := s.misoIn.drop (8 * count)
    trace := (frameEvents bytes count bits).reverse ++ s.trace }

/-- The state after one frame that receives nothing. -/
abbrev State.afterSend (s : State) (bytes : List Byte) : State := s.afterFrame bytes 0 []

/-! ### The state invariant -/

/-- `FRAMER` after the events of a list, from idle. -/
def framerAfter (ms : List Micro) : Framer :=
  ms.foldl (init := .idle) fun f m => match m with
    | .write _ => f
    | .openFrame => .active
    | .closeFrame => .idle
    | .startReceive => f
    | .sample => f
    | .endReceive _ => f
    | .selectMode _ => f
    | .delay _ => f

/-- The value an event writes to `SIG`, if it is a signal write. -/
def Micro.signals (m : Micro) : Option Signals :=
  match m with
  | .write v => some v
  | .openFrame => some ⟨false, false, false, false⟩
  | .closeFrame => some ⟨false, false, true, false⟩
  | .startReceive => some ⟨false, false, false, true⟩
  | .sample => none
  | .endReceive _ => some ⟨false, false, false, true⟩
  | .selectMode _ => none
  | .delay _ => none

/-- The last value the events of a list write to `SIG`, or `v` if they write none. -/
def signalsAfter (v : Signals) (ms : List Micro) : Signals := ms.foldl (fun p m => (m.signals).getD p) v

/-- The mode an event selects, if it is a mode write. -/
def Micro.mode (m : Micro) : Option DeviceMode :=
  match m with
  | .write _ => none
  | .openFrame => none
  | .closeFrame => none
  | .startReceive => none
  | .sample => none
  | .endReceive _ => none
  | .selectMode x => some (modeAfter x)
  | .delay _ => none

/-- The last mode the events of a list select, or `x` if they select none. -/
def modeAfterAll (x : DeviceMode) (ms : List Micro) : DeviceMode := ms.foldl (fun p m => (m.mode).getD p) x

/-- A command in progress stands where its first `k` events have put it, from some values of `SIG` and `MODE` it was
accepted in: in Bit-Bang mode `SIG` was at rest, and a Command Protocol command was accepted in Bit-Bang mode. -/
def State.InProgress (s : State) (op : HostOp) (k : Nat) : Prop :=
  k < (eventsOf Config.delays op s).length
  ∧ s.framer = framerAfter ((eventsOf Config.delays op s).take k)
  ∧ ∃ v x, s.sig = signalsAfter v ((eventsOf Config.delays op s).take k)
    ∧ s.mode = modeAfterAll x ((eventsOf Config.delays op s).take k)
    ∧ (x = .bitBang → v = Signals.rest)
    ∧ (needsBitBang op = true → x = .bitBang)

/-- The invariant of the block: FAULT and FCAUSE agree (R22), the payload buffer has at most 256 entries (R18), no
transaction is in progress while the sequencer is idle (R21), in Bit-Bang mode `SIG` is then at rest (R23), and a command
in progress is within its event list (R20) and where its events have put it. -/
structure State.Inv (s : State) : Prop where
  faultHasCause : s.fault = true ↔ s.fcause ≠ .noFault
  payloadFits : s.pbuf.length ≤ Config.pageMax
  framerIdle : s.seq = .idle → s.framer = .idle
  atRest : s.seq = .idle → s.mode = .bitBang → s.sig = Signals.rest
  inProgress : ∀ op k, s.seq = .running op k → s.InProgress op k

/-! ### The line discipline -/

/-- The seven values BBSPI ever writes to `SIG` (40_signal_driver.md R93). -/
def Signals.used : List Signals :=
  [⟨false, false, false, false⟩, ⟨true, false, false, false⟩, ⟨false, true, false, false⟩, ⟨true, true, false, false⟩,
    ⟨false, false, false, true⟩, ⟨true, false, false, true⟩, ⟨false, false, true, false⟩]

/-- One signal write after another: where CLOCK changes, no other line does, and CHIP_SELECT changes only from CLOCK low
to CLOCK low (41_bit_transport.md R102, 70_reset_and_hazards.md R208). -/
def edgeAllowed (p v : Signals) : Bool :=
  (p.clock == v.clock || (p.mosi == v.mosi && p.chipSelect == v.chipSelect && p.misoEnable == v.misoEnable))
    && (p.chipSelect == v.chipSelect || (!p.clock && !v.clock))

/-- The discipline of a list of events, from the last value written to `SIG`, where one is known: only used values, only
allowed edges, every read directly after the write that raises CLOCK with MISO_ENABLE = 1 (R103, R205, R209), every delay
call with CHIP_SELECT high (44_mode_controller.md R152). -/
def disciplined (last : Option Signals) (es : List Event) : Bool :=
  match es with
  | [] => true
  | .write v :: rest =>
    Signals.used.contains v && (match last with | none => true | some p => edgeAllowed p v) && disciplined (some v) rest
  | .read _ :: rest => (last == some ⟨true, false, false, true⟩) && disciplined last rest
  | .selectMode _ :: rest => disciplined last rest
  | .delay _ :: rest => (match last with | none => false | some p => p.chipSelect) && disciplined last rest

/-- The value of `SIG` an observer of the pins knows: in Bit-Bang mode, what `SIG` holds (10_state.md R14). -/
def State.knownSignals (s : State) : Option Signals :=
  match s.mode with
  | .bitBang => some s.sig
  | .memoryMapped => none
  | .unknown => none

end Sys2Proof.Machine
end

