-- ==== Sys2Proof/Certificates/Slice0/Obligations.lean ====
section
/-! DEFINITION. The statements for the provers. Each docstring names the rule or the section of spec/ it formalises. -/

open Sys2Proof Sys2Proof.Machine

/-! ### Encoding -/

/-- Every well-formed instruction is read back from its own code, with every operand (spec/30_encoding.md sections 2, 3). -/
def Obligations.InstructionRoundTrip : Prop :=
  ∀ i : Instr, i.wellFormed = true → decode (encode i) = .ok i

/-- Every code that decodes is the code of the instruction it decodes to, which is well formed: no two codes share an
instruction and nothing reserved falls through (spec/30_encoding.md sections 2, 3, 6). -/
def Obligations.CodeRoundTrip : Prop :=
  ∀ (c : Code) (i : Instr), decode c = .ok i → encode i = c ∧ i.wellFormed = true

/-- A few words written out from 30_encoding.md R61, R63, R64 and R74 decode to what they stand for. -/
def Obligations.SpecWordsDecode : Prop :=
  decode (.host 0b0000_0000000000000000_000000000000000000000000#44) = .ok (.init 0 0)
  ∧ decode (.host 0b0101_0000000000000000_000000010010001101000101#44) = .ok (.beginErase4K 0 0x012345#24)
  ∧ decode (.host 0b1000_0000000100101100_000000000000000100000000#44) = .ok (.beginWrite 300#16 0x000100#24)
  ∧ decode (.host 0b1011_0000000000000000_000000000000000000000000#44) = .ok (.reservedB 0 0)
  ∧ decode (.host 0b1111_1111111111111111_111111111111111111111111#44)
      = .ok (.reservedCF 0b11#2 0xFFFF#16 0xFFFFFF#24)
  ∧ decode (.frame [0b10010000#8, 0x00#8, 0x00#8, 0x00#8]) = .ok .identA
  ∧ decode (.frame [0b00000101#8]) = .ok .readStatus
  ∧ decode (.frame [0b11011000#8, 0xFF#8, 0x00#8, 0x00#8]) = .ok (.erase64K 0xFF0000#24)
  ∧ decode (.frame [0b00000010#8, 0x00#8, 0x01#8, 0x00#8, 0xDE#8, 0xAD#8, 0xBE#8])
      = .ok (.pageProgram 0x000100#24 [0xDE#8, 0xAD#8, 0xBE#8])

/-- The packed host word has op in bits 43:40, len in 39:24 and addr in 23:0, and the op codes 0x0 to 0xA are the eleven
commands in order, 0xB and 0xC to 0xF the reserved rows (spec/30_encoding.md section 2). -/
def Obligations.HostWordLayout : Prop :=
  (∀ (op : BitVec 4) (len : Length) (addr : Address),
    (hostWord op len addr).toNat = op.toNat * 2 ^ 40 + len.toNat * 2 ^ 24 + addr.toNat)
  ∧ (∀ (op : HostOp) (len : Length) (addr : Address), decodeHost (hostWord op.code len addr) = op.instr len addr)
  ∧ [HostOp.init, .teardown, .isBusy, .identify, .readUniqueId, .beginErase4K, .beginErase32K, .beginErase64K,
      .beginWrite, .hold, .unhold].map (fun op => op.code.toNat) = [0, 1, 2, 3, 4, 5, 6, 7, 8, 9, 10]
  ∧ (∀ (len : Length) (addr : Address), decodeHost (hostWord 0xB#4 len addr) = .reservedB len addr)
  ∧ (∀ (low : BitVec 2) (len : Length) (addr : Address),
    decodeHost (hostWord (0b11#2 ++ low) len addr) = .reservedCF low len addr)

/-- The 24-bit address is sent big-endian in three bytes right after the opcode byte, unscaled and for every address: in the
encoding of the four frames that name one, and on the wire in the four commands that send them (30_encoding.md R66,
20_memory.md R43). -/
def Obligations.AddressBytesBigEndian : Prop :=
  ∀ (addr : Address) (payload : List Byte), payload.length ≤ 256 →
    let a : List Byte :=
      [BitVec.ofNat 8 (addr.toNat / 65536), BitVec.ofNat 8 (addr.toNat / 256), BitVec.ofNat 8 addr.toNat]
    encode (.erase4K addr) = .frame (0x20#8 :: a)
    ∧ encode (.erase32K addr) = .frame (0x52#8 :: a)
    ∧ encode (.erase64K addr) = .frame (0xD8#8 :: a)
    ∧ encode (.pageProgram addr payload) = .frame (0x02#8 :: a ++ payload)
    ∧ ∀ (len : Length) (s : State), s.Ready →
      (∃ t es, exec (.beginErase4K len addr) s = .next t ∧ s.Emitted t es ∧ wireDecode es = [[0x06#8], 0x20#8 :: a])
      ∧ (∃ t es, exec (.beginErase32K len addr) s = .next t ∧ s.Emitted t es ∧ wireDecode es = [[0x06#8], 0x52#8 :: a])
      ∧ (∃ t es, exec (.beginErase64K len addr) s = .next t ∧ s.Emitted t es ∧ wireDecode es = [[0x06#8], 0xD8#8 :: a])
      ∧ (s.Supplied len → ∃ t es, exec (.beginWrite len addr) s = .next t ∧ s.Emitted t es
        ∧ wireDecode es = [[0x06#8], 0x02#8 :: a ++ s.pbuf.take (min len.toNat 256)])

/-- The frames without operands, byte by byte, and how many bytes each frame receives (spec/30_encoding.md section 3). -/
def Obligations.ConstantFrameBytes : Prop :=
  encode .identA = .frame [0x90#8, 0x00#8, 0x00#8, 0x00#8]
  ∧ encode .identB = .frame [0x9F#8]
  ∧ encode .readUid = .frame [0x4B#8, 0x00#8, 0x00#8, 0x00#8, 0x00#8]
  ∧ encode .readStatus = .frame [0x05#8]
  ∧ encode .writeEnable = .frame [0x06#8]
  ∧ encode .exitExt = .frame [0xFF#8, 0xFF#8, 0xFF#8, 0xFF#8, 0xFF#8, 0xFF#8, 0xFF#8, 0xFF#8]
  ∧ encode .wake = .frame [0xAB#8]
  ∧ encode .holdFrame = .frame [0xB9#8]
  ∧ FrameName.all.map (fun f => (descriptor f).received) = [2, 3, 8, 1, 0, 0, 0, 0, 0, 0, 0, 0]

/-- Fields a command does not use have no effect, in any state (spec/30_encoding.md section 2). -/
def Obligations.UnusedFieldsIgnored : Prop :=
  ∀ (len len' : Length) (addr addr' : Address) (s : State),
    exec (.init len addr) s = exec (.init len' addr') s
    ∧ exec (.teardown len addr) s = exec (.teardown len' addr') s
    ∧ exec (.isBusy len addr) s = exec (.isBusy len' addr') s
    ∧ exec (.identify len addr) s = exec (.identify len' addr') s
    ∧ exec (.readUniqueId len addr) s = exec (.readUniqueId len' addr') s
    ∧ exec (.beginErase4K len addr) s = exec (.beginErase4K len' addr) s
    ∧ exec (.beginErase32K len addr) s = exec (.beginErase32K len' addr) s
    ∧ exec (.beginErase64K len addr) s = exec (.beginErase64K len' addr) s
    ∧ exec (.hold len addr) s = exec (.hold len' addr') s
    ∧ exec (.unhold len addr) s = exec (.unhold len' addr') s

/-! ### The Signal Driver, the pins and the registers -/

/-- `writeSignals` sets all four lines in one register write whatever they held, changes nothing else, and in Bit-Bang mode
the pins follow at once (40_signal_driver.md R90). -/
def Obligations.SignalWriteSetsAllFour : Prop :=
  ∀ (c m cs e : Bool) (s : State),
    writeSignals c m cs e s = { s with sig := ⟨c, m, cs, e⟩, trace := .write ⟨c, m, cs, e⟩ :: s.trace }
    ∧ (s.mode = .bitBang →
      (writeSignals c m cs e s).pins = ⟨some c, some m, some cs, some e, if e then none else some m⟩)
    ∧ (∀ map : RegisterMap, Event.access map (.write ⟨c, m, cs, e⟩)
      = some (.memWrite map.sigAddr (Signals.packed ⟨c, m, cs, e⟩)))

/-- `readMiso` returns the level of the line now, which the environment decides, and changes no register of the block
(40_signal_driver.md R91; the environment's list of levels and its free value are the model's, log 4). -/
def Obligations.DataInReadIsADraw : Prop :=
  ∀ (s : State),
    (∀ (b : Bool) (bs : List Bool), s.misoIn = b :: bs →
      readMiso s = (b, { s with misoIn := bs, trace := .read b :: s.trace }))
    ∧ (s.misoIn = [] →
      readMiso s = (Config.misoLevel s.trace, { s with trace := .read (Config.misoLevel s.trace) :: s.trace }))

/-- In Bit-Bang mode each pin carries the field of `SIG` of its name, the MOSI wire is let go of while MISO_ENABLE = 1, and
outside Bit-Bang mode no pin has a level; `SIG` latches in every mode, and when the mode becomes Bit-Bang the pins take
what it holds (10_state.md R14). -/
def Obligations.PinsFollowSignals : Prop :=
  ∀ s : State,
    (s.mode = .bitBang →
      s.pins = ⟨some s.sig.clock, some s.sig.mosi, some s.sig.chipSelect, some s.sig.misoEnable,
        if s.sig.misoEnable then none else some s.sig.mosi⟩)
    ∧ (s.mode ≠ .bitBang → s.pins = ⟨none, none, none, none, none⟩)
    ∧ (∀ c m cs e : Bool, (writeSignals c m cs e s).sig = ⟨c, m, cs, e⟩)
    ∧ (selectMode .bitBang s).pins = ⟨some s.sig.clock, some s.sig.mosi, some s.sig.chipSelect, some s.sig.misoEnable,
        if s.sig.misoEnable then none else some s.sig.mosi⟩

/-- The packed value of a signal write is `(e << 3) | (s << 2) | (c << 1) | m`, with bits 7:4 zero (10_state.md R11). -/
def Obligations.PackedSignalLayout : Prop :=
  ∀ v : Signals,
    (Signals.packed v).toNat = 8 * v.misoEnable.toNat + 4 * v.chipSelect.toNat + 2 * v.clock.toNat + v.mosi.toNat
    ∧ (Signals.packed v).toNat < 16

/-- Every event but a delay call is one whole-register access at the address of its own register, with the encodings of
spec/10_state.md section 1. -/
def Obligations.EventsAreRegisterAccesses : Prop :=
  ∀ map : RegisterMap,
    (∀ v : Signals, Event.access map (.write v) = some (.memWrite map.sigAddr (Signals.packed v)))
    ∧ (∀ b : Bool, Event.access map (.read b) = some (.memRead map.misoAddr (if b then 0x01#8 else 0x00#8)))
    ∧ Event.access map (.selectMode .bitBang) = some (.memWrite map.modeAddr 0x01#8)
    ∧ Event.access map (.selectMode .memoryMapped) = some (.memWrite map.modeAddr 0x00#8)
    ∧ (∀ ms : Nat, Event.access map (.delay ms) = none)

/-! ### Bit Transport -/

/-- Every byte, sent or received, moves most significant bit first: bit 7 in the first clock pulse, bit 0 in the eighth
(20_memory.md R42). A received bit is the one sample taken in its pulse: after the set-up write, pulse k is the write that
raises CLOCK, the read of bit 7 - k, and the write that lowers CLOCK. -/
def Obligations.MostSignificantBitFirst : Prop :=
  ∀ s : State, s.framer = .active →
    (∀ v : Byte, ∃ t es, transmitByte v s = .done () t ∧ s.Emitted t es
      ∧ pulses es = (List.range 8).map fun k => byteBit v (7 - k))
    ∧ (∃ b t es, receiveByte s = .done b t ∧ s.Emitted t es
      ∧ es = evW false false false true :: (List.range 8).flatMap (fun k =>
          [evW true false false true, .read (byteBit b (7 - k)), evW false false false true])
      ∧ (pulses es).length = 8 ∧ samples es = (List.range 8).map fun k => byteBit b (7 - k))

/-- `transmitByte`: three writes a bit with CHIP_SELECT and MISO_ENABLE low, 24 in all and no read; MOSI keeps the last
bit; nothing else changes. Outside a transaction it is F_FRAME (41_bit_transport.md R100). -/
def Obligations.TransmitByteWrites : Prop :=
  ∀ (v : Byte) (s : State),
    (s.framer = .active → ∃ es, countEvents es = ⟨24, 0, 0, 0⟩
      ∧ es = [7, 6, 5, 4, 3, 2, 1, 0].flatMap (fun i => [evW false (v.getLsbD i) false false,
          evW true (v.getLsbD i) false false, evW false (v.getLsbD i) false false])
      ∧ transmitByte v s =
        .done () { s with sig := ⟨false, v.getLsbD 0, false, false⟩, trace := es.reverse ++ s.trace })
    ∧ (s.framer = .idle → transmitByte v s = .raised (raiseFault .frame s))

/-- `receiveByte`: set-up write, then eight times raise, read, lower; 17 writes and 8 reads; the result is the sum of the
samples shifted by 7 down to 0, whatever `ACC` held; MISO_ENABLE stays asserted; nothing else changes. Outside a
transaction it is F_FRAME (41_bit_transport.md R101). -/
def Obligations.ReceiveByteSamples : Prop :=
  ∀ s : State,
    (s.framer = .active → ∃ (bits : List Bool) (b : Byte) (es : List Event), s.Drew 8 bits
      ∧ es = evW false false false true ::
          bits.flatMap (fun x => [evW true false false true, .read x, evW false false false true])
      ∧ countEvents es = ⟨17, 8, 0, 0⟩
      ∧ b.toNat = ((List.range 8).map fun k => (bits.getD k false).toNat * 2 ^ (7 - k)).sum
      ∧ receiveByte s = .done b
        { s with
          sig := ⟨false, false, false, true⟩
          acc := b
          misoIn := s.misoIn.drop 8
          trace := es.reverse ++ s.trace })
    ∧ (s.framer = .idle → receiveByte s = .raised (raiseFault .frame s))

/-- The source's round trip: if the samples are the levels a device read at the eight pulses of `transmitByte(b)`, first
first, the following `receiveByte` returns b (spec/41_bit_transport.md, the integer laws of the serializer, (d)). -/
def Obligations.EchoRoundTrip : Prop :=
  ∀ (b : Byte) (s : State), s.framer = .active →
    ∃ t es u, transmitByte b s = .done () t ∧ s.Emitted t es
      ∧ receiveByte { t with misoIn := pulses es ++ t.misoIn } = .done b u ∧ u.misoIn = t.misoIn

/-- After eight accumulations no bit of the starting value remains (spec/41_bit_transport.md, the integer laws of the
serializer, (b) and (c)). -/
def Obligations.AccumulatorForgets : Prop :=
  (∀ (acc : Byte) (b : Bool), (shiftIn acc b).toNat = (acc.toNat * 2 + b.toNat) % 256)
  ∧ ∀ (acc : Byte) (bits : List Bool), bits.length = 8 →
    (bits.foldl shiftIn acc).toNat = ((List.range 8).map fun k => (bits.getD k false).toNat * 2 ^ (7 - k)).sum

/-! ### Transaction Framing -/

/-- The framer: `beginTransaction` and `endTransaction` make one write each and take it to ACTIVE and to IDLE; every other
call in the other state is a fault; a byte operation in ACTIVE stays there (42_transaction_framing.md R110, R111, R112). -/
def Obligations.FramerTransitions : Prop :=
  ∀ s : State,
    (s.framer = .idle →
      beginTransaction s = .done ()
        { s with
          sig := ⟨false, false, false, false⟩
          framer := .active
          trace := evW false false false false :: s.trace }
      ∧ endTransaction s = .raised (raiseFault .nest s)
      ∧ (∀ v, transmitByte v s = .raised (raiseFault .frame s))
      ∧ receiveByte s = .raised (raiseFault .frame s))
    ∧ (s.framer = .active →
      beginTransaction s = .raised (raiseFault .nest s)
      ∧ endTransaction s = .done ()
        { s with
          sig := ⟨false, false, true, false⟩
          framer := .idle
          trace := evW false false true false :: s.trace }
      ∧ (∀ v, ∃ t, transmitByte v s = .done () t ∧ t.framer = .active)
      ∧ ∃ b t, receiveByte s = .done b t ∧ t.framer = .active)

/-- One frame: 2 + 24T + 17Q writes and 8Q reads; what the wire decoder reads is exactly its transmitted bytes; the
received bytes are the samples, eight to a byte; it leaves `SIG` at rest and changes nothing else but ACC
(spec/42_transaction_framing.md, the framing contract; spec/70_reset_and_hazards.md section 4). -/
def Obligations.FrameOnTheWire : Prop :=
  ∀ (bytes : List Byte) (count : Nat) (s : State), s.framer = .idle →
    ∃ (bits : List Bool) (q : List Byte) (es : List Event) (t : State),
      s.Drew (8 * count) bits
      ∧ frame bytes count s = .done q t
      ∧ s.Emitted t es
      ∧ countEvents es = ⟨2 + 24 * bytes.length + 17 * count, 8 * count, 0, 0⟩
      ∧ wireDecode es = [bytes]
      ∧ samples es = bits
      ∧ q.length = count ∧ q.flatMap byteBits = bits
      ∧ t = { s with
          sig := Signals.rest, acc := q.getLastD s.acc, misoIn := s.misoIn.drop (8 * count), trace := t.trace }

/-! ### Host commands -/

/-- `init`, from any idle state and any mode, for every value of the three OPEN delays: the signal write, the mode write,
the two Reset/Wake frames, the delay points between, `RC` = 0, and nothing else (44_mode_controller.md R150, R152). -/
def Obligations.InitEffect : Prop :=
  (∀ (d : Delays) (s : State), s.Idle →
    initWith d s = .done ()
      { s with
        sig := Signals.rest
        mode := .bitBang
        rc := some 0
        trace := ([evW false false true false, .selectMode .bitBang]
          ++ (if d.preMs = 0 then [] else [Event.delay d.preMs])
          ++ frameEvents (List.replicate 8 0xFF#8) 0 []
          ++ (if d.midMs = 0 then [] else [Event.delay d.midMs])
          ++ frameEvents [0xAB#8] 0 []
          ++ (if d.postMs = 0 then [] else [Event.delay d.postMs])).reverse ++ s.trace })
  ∧ ∀ (len : Length) (addr : Address) (s : State), s.Idle →
    ∃ t, initWith Config.delays s = .done () t ∧ exec (.init len addr) s = .next t

/-- `teardown`: one mode write, `SIG` kept, in any mode (44_mode_controller.md R151). -/
def Obligations.TeardownEffect : Prop :=
  ∀ (len : Length) (addr : Address) (s : State), s.seq = .idle →
    exec (.teardown len addr) s = .next { s with mode := .memoryMapped, trace := .selectMode .memoryMapped :: s.trace }

/-- `isBusy`: one READ_STATUS frame; `BUSY` is bit 0 of the status byte, the last of its eight samples, and no other
register but `SIG` and `ACC` is touched; F_MODE outside Bit-Bang mode (43_command_protocol.md R124). -/
def Obligations.IsBusyEffect : Prop :=
  ∀ (len : Length) (addr : Address) (s : State),
    (s.seq = .idle → s.mode ≠ .bitBang → exec (.isBusy len addr) s = .next (raiseFault (.mode 0x2#4) s))
    ∧ (s.Ready → ∃ bits, s.Drew 8 bits
      ∧ exec (.isBusy len addr) s =
        .next { s.afterFrame [0x05#8] 1 bits with busy := some (bits.getD 7 false) }
      ∧ countEvents (frameEvents [0x05#8] 1 bits) = ⟨43, 8, 0, 0⟩)

/-- `identify`: IDENT_A, then IDENT_B; the five bytes go to `RBUF[0..4]` in arrival order, unchecked, and `RBUF[5..7]` stay;
F_MODE outside Bit-Bang mode (43_command_protocol.md R125). -/
def Obligations.IdentifyEffect : Prop :=
  ∀ (len : Length) (addr : Address) (s : State),
    (s.seq = .idle → s.mode ≠ .bitBang → exec (.identify len addr) s = .next (raiseFault (.mode 0x3#4) s))
    ∧ (s.Ready → ∃ a b q0 q1 q2 q3 q4, s.Drew 40 (a ++ b) ∧ a.length = 16
      ∧ receivedBytes 2 a = [q0, q1] ∧ receivedBytes 3 b = [q2, q3, q4]
      ∧ exec (.identify len addr) s =
        .next
          { (s.afterFrame [0x90#8, 0x00#8, 0x00#8, 0x00#8] 2 a).afterFrame [0x9F#8] 3 b with
            rbuf := #v[some q0, some q1, some q2, some q3, some q4, s.rbuf[5], s.rbuf[6], s.rbuf[7]] }
      ∧ countEvents (frameEvents [0x90#8, 0x00#8, 0x00#8, 0x00#8] 2 a ++ frameEvents [0x9F#8] 3 b) = ⟨209, 40, 0, 0⟩)

/-- `readUniqueId`: one READ_UID frame; the eight bytes go to `RBUF[0..7]` in arrival order; F_MODE outside Bit-Bang mode
(43_command_protocol.md R126). -/
def Obligations.ReadUniqueIdEffect : Prop :=
  ∀ (len : Length) (addr : Address) (s : State),
    (s.seq = .idle → s.mode ≠ .bitBang → exec (.readUniqueId len addr) s = .next (raiseFault (.mode 0x4#4) s))
    ∧ (s.Ready → ∃ bits q0 q1 q2 q3 q4 q5 q6 q7, s.Drew 64 bits
      ∧ receivedBytes 8 bits = [q0, q1, q2, q3, q4, q5, q6, q7]
      ∧ exec (.readUniqueId len addr) s =
        .next
          { s.afterFrame [0x4B#8, 0x00#8, 0x00#8, 0x00#8, 0x00#8] 8 bits with
            rbuf := #v[some q0, some q1, some q2, some q3, some q4, some q5, some q6, some q7] }
      ∧ countEvents (frameEvents [0x4B#8, 0x00#8, 0x00#8, 0x00#8, 0x00#8] 8 bits) = ⟨258, 64, 0, 0⟩)

/-- The three erase commands: `ADDR` loaded with the low 24 bits of the address, the write-enable frame, then the erase frame
with the address big-endian, unaligned and unchecked; F_MODE outside Bit-Bang mode, with `ADDR` kept
(43_command_protocol.md R127, R128, R129). -/
def Obligations.EraseEffect : Prop :=
  ∀ (len : Length) (address : Nat) (s : State),
    let addr : Address := BitVec.ofNat 24 address
    let a : List Byte :=
      [BitVec.ofNat 8 (address / 65536), BitVec.ofNat 8 (address / 256), BitVec.ofNat 8 address]
    (s.seq = .idle → s.mode ≠ .bitBang →
      exec (.beginErase4K len addr) s = .next (raiseFault (.mode 0x5#4) s)
      ∧ exec (.beginErase32K len addr) s = .next (raiseFault (.mode 0x6#4) s)
      ∧ exec (.beginErase64K len addr) s = .next (raiseFault (.mode 0x7#4) s))
    ∧ (s.Ready →
      exec (.beginErase4K len addr) s =
        .next (({ s with addr := addr }.afterSend [0x06#8]).afterSend (0x20#8 :: a))
      ∧ exec (.beginErase32K len addr) s =
        .next (({ s with addr := addr }.afterSend [0x06#8]).afterSend (0x52#8 :: a))
      ∧ exec (.beginErase64K len addr) s =
        .next (({ s with addr := addr }.afterSend [0x06#8]).afterSend (0xD8#8 :: a))
      ∧ ∀ opcode : Byte,
        countEvents (frameEvents [0x06#8] 0 [] ++ frameEvents (opcode :: a) 0 []) = ⟨124, 0, 0, 0⟩)

/-- `beginWrite`: `ADDR` (the low 24 bits) and `LEN` loaded, the write-enable frame, then PAGE_PROGRAM with exactly min(LEN, 256) payload
bytes in index order; a longer length is no fault; F_MODE outside Bit-Bang mode, F_OPERAND if a byte it will read was not
supplied, both with `ADDR` and `LEN` kept (43_command_protocol.md R130). -/
def Obligations.BeginWriteEffect : Prop :=
  ∀ (len : Length) (address : Nat) (s : State),
    let n := min len.toNat 256
    let addr : Address := BitVec.ofNat 24 address
    let a : List Byte :=
      [BitVec.ofNat 8 (address / 65536), BitVec.ofNat 8 (address / 256), BitVec.ofNat 8 address]
    (s.seq = .idle → s.mode ≠ .bitBang → exec (.beginWrite len addr) s = .next (raiseFault (.mode 0x8#4) s))
    ∧ (s.seq = .idle → s.mode = .bitBang → s.pbuf.length < n →
      exec (.beginWrite len addr) s = .next (raiseFault (.operand s.pbuf.length) s))
    ∧ (s.Ready → n ≤ s.pbuf.length →
      exec (.beginWrite len addr) s =
        .next (({ s with addr := addr, len := len }.afterSend [0x06#8]).afterSend (0x02#8 :: a ++ s.pbuf.take n))
      ∧ countEvents (frameEvents [0x06#8] 0 [] ++ frameEvents (0x02#8 :: a ++ s.pbuf.take n) 0 [])
        = ⟨124 + 24 * n, 0, 0, 0⟩)

/-- `hold` and `unhold`: one frame each, 0xB9 and 0xAB, and no record kept; F_MODE outside Bit-Bang mode
(43_command_protocol.md R131, R132). -/
def Obligations.HoldUnholdEffect : Prop :=
  ∀ (len : Length) (addr : Address) (s : State),
    (s.seq = .idle → s.mode ≠ .bitBang →
      exec (.hold len addr) s = .next (raiseFault (.mode 0x9#4) s)
      ∧ exec (.unhold len addr) s = .next (raiseFault (.mode 0xA#4) s))
    ∧ (s.Ready →
      exec (.hold len addr) s = .next (s.afterSend [0xB9#8])
      ∧ exec (.unhold len addr) s = .next (s.afterSend [0xAB#8]))
    ∧ countEvents (frameEvents [0xB9#8] 0 []) = ⟨26, 0, 0, 0⟩
    ∧ countEvents (frameEvents [0xAB#8] 0 []) = ⟨26, 0, 0, 0⟩

/-- What each host command sends, as the wire decoder reads it: the frames of spec/30_encoding.md section 5, in order, each
erase and program frame preceded by a write-enable transaction of its own. -/
def Obligations.WireTransactions : Prop :=
  ∀ (len : Length) (addr : Address) (s t : State) (es : List Event),
    let a : List Byte := [addr.extractLsb' 16 8, addr.extractLsb' 8 8, addr.extractLsb' 0 8]
    s.Emitted t es →
    (s.Idle →
      (exec (.init len addr) s = .next t → wireDecode es = [List.replicate 8 0xFF#8, [0xAB#8]])
      ∧ (exec (.teardown len addr) s = .next t → wireDecode es = []))
    ∧ (s.Ready →
      (exec (.isBusy len addr) s = .next t → wireDecode es = [[0x05#8]])
      ∧ (exec (.identify len addr) s = .next t → wireDecode es = [[0x90#8, 0x00#8, 0x00#8, 0x00#8], [0x9F#8]])
      ∧ (exec (.readUniqueId len addr) s = .next t → wireDecode es = [[0x4B#8, 0x00#8, 0x00#8, 0x00#8, 0x00#8]])
      ∧ (exec (.beginErase4K len addr) s = .next t → wireDecode es = [[0x06#8], 0x20#8 :: a])
      ∧ (exec (.beginErase32K len addr) s = .next t → wireDecode es = [[0x06#8], 0x52#8 :: a])
      ∧ (exec (.beginErase64K len addr) s = .next t → wireDecode es = [[0x06#8], 0xD8#8 :: a])
      ∧ (s.Supplied len → exec (.beginWrite len addr) s = .next t →
        wireDecode es = [[0x06#8], 0x02#8 :: a ++ s.pbuf.take (min len.toNat 256)])
      ∧ (exec (.hold len addr) s = .next t → wireDecode es = [[0xB9#8]])
      ∧ (exec (.unhold len addr) s = .next t → wireDecode es = [[0xAB#8]]))

/-- `init` makes 221 writes, one mode write, no read and a delay call for each delay that is not 0; `teardown` one mode
write (spec/70_reset_and_hazards.md section 4). -/
def Obligations.ModeCommandCounts : Prop :=
  ∀ (len : Length) (addr : Address) (s t : State) (es : List Event), s.Idle → s.Emitted t es →
    (exec (.init len addr) s = .next t →
      countEvents es = ⟨221, 0, 1, ([Config.delays.preMs, Config.delays.midMs, Config.delays.postMs].filter (· ≠ 0)).length⟩)
    ∧ (exec (.teardown len addr) s = .next t → countEvents es = ⟨0, 0, 1, 0⟩)

/-! ### Wire frames -/

/-- The eight frames that receive nothing, each as one bare transaction (the frame slot is the model's own, log 7): the
events of its bytes and nothing else, from any idle state; a PAGE_PROGRAM frame sends at most 256 payload bytes
(spec/30_encoding.md section 3; spec/42_transaction_framing.md). -/
def Obligations.SendingFramesComplete : Prop :=
  ∀ (addr : Address) (payload : List Byte) (s : State), s.Idle →
    let a : List Byte := [addr.extractLsb' 16 8, addr.extractLsb' 8 8, addr.extractLsb' 0 8]
    exec .writeEnable s = .next (s.afterSend [0x06#8])
    ∧ exec (.erase4K addr) s = .next (s.afterSend (0x20#8 :: a))
    ∧ exec (.erase32K addr) s = .next (s.afterSend (0x52#8 :: a))
    ∧ exec (.erase64K addr) s = .next (s.afterSend (0xD8#8 :: a))
    ∧ exec (.pageProgram addr payload) s = .next (s.afterSend (0x02#8 :: a ++ payload.take 256))
    ∧ exec .exitExt s = .next (s.afterSend (List.replicate 8 0xFF#8))
    ∧ exec .wake s = .next (s.afterSend [0xAB#8])
    ∧ exec .holdFrame s = .next (s.afterSend [0xB9#8])

/-- The four frames that receive, each as one bare transaction: the received bytes go to `RBUF` where the frame's row puts
them, and of the status byte only bit 0 is kept, in `BUSY` (spec/30_encoding.md sections 3, 4; that a bare frame stores its
response is the model's choice, log 7). -/
def Obligations.ReceivingFramesComplete : Prop :=
  ∀ s : State, s.Idle →
    (∃ bits q0 q1, s.Drew 16 bits ∧ receivedBytes 2 bits = [q0, q1]
      ∧ exec .identA s = .next
        { s.afterFrame [0x90#8, 0x00#8, 0x00#8, 0x00#8] 2 bits with
          rbuf := #v[some q0, some q1, s.rbuf[2], s.rbuf[3], s.rbuf[4], s.rbuf[5], s.rbuf[6], s.rbuf[7]] })
    ∧ (∃ bits q0 q1 q2, s.Drew 24 bits ∧ receivedBytes 3 bits = [q0, q1, q2]
      ∧ exec .identB s = .next
        { s.afterFrame [0x9F#8] 3 bits with
          rbuf := #v[s.rbuf[0], s.rbuf[1], some q0, some q1, some q2, s.rbuf[5], s.rbuf[6], s.rbuf[7]] })
    ∧ (∃ bits q0 q1 q2 q3 q4 q5 q6 q7, s.Drew 64 bits
      ∧ receivedBytes 8 bits = [q0, q1, q2, q3, q4, q5, q6, q7]
      ∧ exec .readUid s = .next
        { s.afterFrame [0x4B#8, 0x00#8, 0x00#8, 0x00#8, 0x00#8] 8 bits with
          rbuf := #v[some q0, some q1, some q2, some q3, some q4, some q5, some q6, some q7] })
    ∧ (∃ bits, s.Drew 8 bits
      ∧ exec .readStatus s = .next { s.afterFrame [0x05#8] 1 bits with busy := some (bits.getD 7 false) })

/-- Inside a transaction, as in the middle of any command, a whole frame, an internal operation and the procedure of each
Command Protocol command are the fault F_NEST at their first `beginTransaction`, with no event and no other register
changed: the functions a model exposes below the host interface (spec/60_exceptions.md section 1;
spec/42_transaction_framing.md; spec/92_eei_decisions.md D30). -/
def Obligations.NestedTransactionFaults : Prop :=
  ∀ s : State, s.framer = .active →
    let nested : State := { s with fault := true, fcause := if s.fault then s.fcause else .nest, seq := .idle }
    (∀ (bytes : List Byte) (count : Nat), frame bytes count s = .raised nested)
    ∧ readStatus s = .raised nested
    ∧ writeEnable s = .raised nested
    ∧ (∀ midMs : Nat, resetWake midMs s = .raised nested)
    ∧ isBusy s = .raised nested
    ∧ identify s = .raised nested
    ∧ readUniqueId s = .raised nested
    ∧ beginErase4K s = .raised nested
    ∧ beginErase32K s = .raised nested
    ∧ beginErase64K s = .raised nested
    ∧ beginWrite s = .raised nested
    ∧ hold s = .raised nested
    ∧ unhold s = .raised nested

/-! ### Faults -/

/-- A host word whose op field is 0xB to 0xF is the fault F_RESERVED_OP, code 1, with the op field recorded, in every mode
(60_exceptions.md R160). -/
def Obligations.ReservedOpFaults : Prop :=
  ∀ (w : BitVec 44) (s : State), 0xB ≤ (opField w).toNat → s.seq = .idle →
    exec (decodeHost w) s =
      .next { s with fault := true, fcause := if s.fault then s.fcause else .reservedOp (opField w) }
    ∧ FaultCause.code (.reservedOp (opField w)) = 1
    ∧ FaultCause.value (.reservedOp (opField w)) = some (opField w).toNat

/-- Each of the nine Command Protocol commands presented outside Bit-Bang mode is the fault F_MODE, code 2, with its op
field recorded, before any event; `init` and `teardown` never raise it, and a command that passes the check ends in the
mode it was accepted in (60_exceptions.md R161). -/
def Obligations.ModeFaults : Prop :=
  (∀ (op : HostOp) (len : Length) (addr : Address) (s : State),
    op ≠ .init → op ≠ .teardown → s.seq = .idle → s.mode ≠ .bitBang →
      exec (op.instr len addr) s =
        .next { s with fault := true, fcause := if s.fault then s.fcause else .mode op.code })
  ∧ (∀ (len : Length) (addr : Address) (s t : State) (c : BitVec 4),
    exec (.init len addr) s = .next t ∨ exec (.teardown len addr) s = .next t →
      t.fcause = .mode c → s.fcause = .mode c)
  ∧ (∀ (op : HostOp) (len : Length) (addr : Address) (s t : State),
    op ≠ .init → op ≠ .teardown → s.mode = .bitBang → exec (op.instr len addr) s = .next t → t.mode = .bitBang)
  ∧ ∀ op : HostOp, FaultCause.code (.mode op.code) = 2 ∧ FaultCause.value (.mode op.code) = some op.code.toNat

/-- `beginWrite` with fewer than min(LEN, 256) payload bytes supplied is the fault F_OPERAND, code 3, with the smallest
missing index recorded (60_exceptions.md R163). -/
def Obligations.OperandFaults : Prop :=
  ∀ (len : Length) (addr : Address) (s : State), s.seq = .idle → s.mode = .bitBang →
    (∃ i, i < min len.toNat 256 ∧ s.pbufEntry i = none) →
    ∃ i, i < min len.toNat 256 ∧ s.pbufEntry i = none ∧ (∀ j, j < i → s.pbufEntry j ≠ none)
      ∧ exec (.beginWrite len addr) s =
        .next { s with fault := true, fcause := if s.fault then s.fcause else .operand i }
      ∧ FaultCause.code (.operand i) = 3 ∧ FaultCause.value (.operand i) = some i

/-- Fault entry: no event; `FAULT` and `FCAUSE` written if `FAULT` was 0 and nothing written if it was 1; `SEQ` and `FRAMER`
stay idle, `SIG` and `MODE` stay (60_exceptions.md R165). -/
def Obligations.FaultEntry : Prop :=
  ∀ (cause : FaultCause) (s : State), s.Idle →
    (s.fault = false → raiseFault cause s = { s with fault := true, fcause := cause })
    ∧ (s.fault = true → raiseFault cause s = s)

/-- The checks stand in the order F_RESERVED_OP, F_MODE, F_OPERAND: a reserved code outside Bit-Bang mode is the first, a
`beginWrite` outside Bit-Bang mode whose payload is short is the second (spec/60_exceptions.md section 2). -/
def Obligations.FaultPriority : Prop :=
  ∀ (len : Length) (addr : Address) (low : BitVec 2) (s : State), s.seq = .idle → s.mode ≠ .bitBang →
    exec (.reservedB len addr) s = .next (raiseFault (.reservedOp 0xB#4) s)
    ∧ exec (.reservedCF low len addr) s = .next (raiseFault (.reservedOp (0b11#2 ++ low)) s)
    ∧ (¬ s.Supplied len → exec (.beginWrite len addr) s = .next (raiseFault (.mode 0x8#4) s))

/-- Without a reset no step clears `FAULT` or changes `FCAUSE` once `FAULT` is 1 (spec/60_exceptions.md section 3,
spec/10_state.md section 4). -/
def Obligations.FaultIsSticky : Prop :=
  ∀ s t : State, s.resetIn = false → s.fault = true → step s = .next t → t.fault = true ∧ t.fcause = s.fcause

/-- After a fault every instruction still does what it does without one, and the fault stays recorded
(spec/60_exceptions.md section 3). -/
def Obligations.FaultedMachineStillRuns : Prop :=
  ∀ (i : Instr) (c : FaultCause) (s t : State), s.fault = false → t.fault = false → exec i s = .next t →
    exec i { s with fault := true, fcause := c } = .next { t with fault := true, fcause := c }

/-- An instruction presented while a command is in progress makes no step (spec/92_eei_decisions.md D29, log 9). -/
def Obligations.CommandInProgressStops : Prop :=
  ∀ (i : Instr) (op : HostOp) (k : Nat) (s : State), s.seq = .running op k → exec i s = .fault .commandInProgress

/-! ### Modes and control -/

/-- The life cycle of `MODE`: `init` takes any value to Bit-Bang, `teardown` any value to Memory-Mapped, the other commands
fault outside Bit-Bang mode and execute in it, and no other instruction changes it (44_mode_controller.md R153). -/
def Obligations.ModeLifeCycle : Prop :=
  State.reset.mode = .unknown
  ∧ ∀ (len : Length) (addr : Address) (s t : State), s.Idle →
    (exec (.init len addr) s = .next t → t.mode = .bitBang)
    ∧ (exec (.teardown len addr) s = .next t → t.mode = .memoryMapped)
    ∧ (∀ op : HostOp, op ≠ .init → op ≠ .teardown → s.mode ≠ .bitBang →
      exec (op.instr len addr) s = .next (raiseFault (.mode op.code) s))
    ∧ (∀ op : HostOp, op ≠ .init → op ≠ .teardown → s.mode = .bitBang → (op = .beginWrite → s.Supplied len) →
      ∃ u es, exec (op.instr len addr) s = .next u ∧ s.Emitted u es ∧ es ≠ [] ∧ u.fault = s.fault)
    ∧ (∀ i : Instr, (∀ l a, i ≠ .init l a) → (∀ l a, i ≠ .teardown l a) → exec i s = .next t → t.mode = s.mode)

/-- No received level changes what the block does: two runs of an instruction that differ only in the levels the device
gives emit the same events but for the levels read, and end alike but for `ACC`, `RBUF` and `BUSY`
(spec/42_transaction_framing.md, control transfer; spec/43_command_protocol.md section 1). -/
def Obligations.ReceivedLevelsDoNotSteer : Prop :=
  ∀ (i : Instr) (m1 m2 : List Bool) (s t1 t2 : State),
    exec i { s with misoIn := m1 } = .next t1 → exec i { s with misoIn := m2 } = .next t2 →
    t1.trace.map Event.withoutLevel = t2.trace.map Event.withoutLevel
    ∧ { t1 with acc := 0, rbuf := s.rbuf, busy := none, misoIn := [], trace := [] }
      = { t2 with acc := 0, rbuf := s.rbuf, busy := none, misoIn := [], trace := [] }

/-! ### The whole machine -/

/-- Every value BBSPI writes to `SIG` is one of the seven of spec/40_signal_driver.md, so CHIP_SELECT = 1 is never written
with CLOCK, MOSI or MISO_ENABLE = 1, nor MOSI = 1 with MISO_ENABLE = 1; and `SIG` holds the last value written. -/
def Obligations.OnlySevenSignalValues : Prop :=
  ∀ (i : Instr) (s t : State) (es : List Event), exec i s = .next t → s.Emitted t es →
    t.sig = lastWritten s.sig es
    ∧ ∀ v : Signals, Event.write v ∈ es →
      v ∈ Signals.used
      ∧ (v.chipSelect = true → v.clock = false ∧ v.mosi = false ∧ v.misoEnable = false)
      ∧ (v.mosi = true → v.misoEnable = false)

/-- The built-in hazards hold of every instruction: data stable around each clock edge, CHIP_SELECT moving only with CLOCK
low, every read directly after the write that raises CLOCK with MISO_ENABLE = 1, no delay call inside a frame
(spec/70_reset_and_hazards.md section 3). -/
def Obligations.LineDiscipline : Prop :=
  ∀ (i : Instr) (s t : State) (es : List Event), s.Inv → exec i s = .next t → s.Emitted t es →
    disciplined s.knownSignals es = true

/-- The invariant holds after reset, and after a reset at any moment. -/
def Obligations.InvariantAtReset : Prop :=
  State.reset.Inv ∧ ∀ s : State, (applyReset s).Inv

/-- Every step keeps the invariant: FAULT and FCAUSE agree, at most 256 payload entries, no transaction in progress and `SIG`
at rest in Bit-Bang mode whenever the sequencer is idle, and a command in progress where its events have put it
(spec/10_state.md sections 3 to 5). -/
def Obligations.InvariantKept : Prop :=
  ∀ s t : State, s.Inv → step s = .next t → t.Inv

/-- Accepting a command in the event view keeps the invariant too, so it holds throughout every command
(spec/10_state.md section 5). -/
def Obligations.InvariantKeptByPresent : Prop :=
  ∀ (op : HostOp) (len : Length) (addr : Address) (s t : State), s.Inv → present op len addr s = .next t → t.Inv

/-- In Bit-Bang mode the framer is ACTIVE exactly when CHIP_SELECT is low, also in the middle of a command
(spec/10_state.md section 5). -/
def Obligations.FramerMatchesChipSelect : Prop :=
  ∀ s : State, s.Inv → s.mode = .bitBang → (s.framer = .active ↔ s.sig.chipSelect = false)

/-- No step a host can cause raises F_NEST or F_FRAME, and none fills the frame slot (spec/60_exceptions.md section 1). -/
def Obligations.FramingFaultsUnreachable : Prop :=
  ∀ s t : State, s.Inv → s.frameSlot = none → step s = .next t →
    t.frameSlot = none
    ∧ (s.fcause ≠ .nest → t.fcause ≠ .nest) ∧ (s.fcause ≠ .frame → t.fcause ≠ .frame)

/-- The two views of a command agree: accepted in the event view and run event by event for as many events as its list has,
or more, it ends where the command as one step ends, from every idle state (spec/92_eei_decisions.md D24;
spec/10_state.md section 5). -/
def Obligations.EventViewAgrees : Prop :=
  ∀ (op : HostOp) (len : Length) (addr : Address) (s : State), s.seq = .idle →
    ∃ s1, present op len addr s = .next s1
      ∧ ∀ n, (eventsOf Config.delays op (loadOperands op len addr s)).length ≤ n →
        runEvents n s1 = exec (op.instr len addr) s

/-- Each event step of a command emits exactly one event and moves `SEQ` to the next index, or to idle after the last
(spec/10_state.md section 5). -/
def Obligations.OneEventPerStep : Prop :=
  ∀ (op : HostOp) (k : Nat) (s : State), s.Inv → s.seq = .running op k →
    ∃ t e, eventStep s = .next t ∧ t.trace = e :: s.trace
      ∧ (k + 1 < (eventsOf Config.delays op s).length → t.seq = .running op (k + 1))
      ∧ (k + 1 = (eventsOf Config.delays op s).length → t.seq = .idle)

/-- The lengths of the event lists; that of `beginWrite`, the only one an operand decides, is at most 6268
(spec/10_state.md section 5, spec/70_reset_and_hazards.md section 4). -/
def Obligations.EventListLengths : Prop :=
  ∀ (d : Delays) (addr : Address) (len : Length) (pbuf : List Byte), payloadCount len ≤ pbuf.length →
    (commandMicros d .init addr len pbuf).length = 222 + ([d.preMs, d.midMs, d.postMs].filter (· ≠ 0)).length
    ∧ (commandMicros d .teardown addr len pbuf).length = 1
    ∧ (commandMicros d .isBusy addr len pbuf).length = 51
    ∧ (commandMicros d .identify addr len pbuf).length = 249
    ∧ (commandMicros d .readUniqueId addr len pbuf).length = 322
    ∧ (commandMicros d .beginErase4K addr len pbuf).length = 124
    ∧ (commandMicros d .beginErase32K addr len pbuf).length = 124
    ∧ (commandMicros d .beginErase64K addr len pbuf).length = 124
    ∧ (commandMicros d .beginWrite addr len pbuf).length = 124 + 24 * min len.toNat 256
    ∧ (commandMicros d .beginWrite addr len pbuf).length ≤ 6268
    ∧ (commandMicros d .hold addr len pbuf).length = 26
    ∧ (commandMicros d .unhold addr len pbuf).length = 26

/-- A step runs the decoded instruction. A reset comes first; then the next event of a command in progress; then a bare
frame (log 7), or the caller's next command, before a `beginWrite` with PBUF holding exactly the payload supplied with it
(log 6); with nothing to run the block waits. -/
def Obligations.StepRunsDecoded : Prop :=
  ∀ s : State,
    (s.resetIn = true → step s = .next (applyReset s))
    ∧ (s.resetIn = false →
      (∀ op k, s.seq = .running op k → step s = eventStep s)
      ∧ (s.seq = .idle →
        (∀ bytes, s.frameSlot = some bytes →
          (∀ i, decode (.frame bytes) = .ok i → step s = exec i { s with frameSlot := none })
          ∧ ∀ why, decode (.frame bytes) = .error why → step s = .refused (.noSuchFrame why))
        ∧ (s.frameSlot = none →
          (∀ r rest i, s.caller = r :: rest → decode (.host r.word) = .ok i →
            ((∀ len addr, i ≠ .beginWrite len addr) → step s = exec i { s with caller := rest })
            ∧ ∀ len addr, i = .beginWrite len addr →
              step s = exec i { s with caller := rest, pbuf := (r.payload.getD []).take 256 })
          ∧ (s.caller = [] → step s = .next s))))

/-- A code placed where `step` takes its next one runs next, whatever stood there before: no reset, no command in progress
and no bare frame is in its way, and the caller's own commands stay for later; a placed `beginWrite` has as its payload what
PBUF holds, of which there are at most 256 entries in every state that meets the invariant (the model's own way to load a
program, log 14). -/
def Obligations.PlacedCodeRuns : Prop :=
  ∀ (c : Code) (i : Instr) (s : State), decode c = .ok i →
    ((∀ len addr, i ≠ .beginWrite len addr) →
      step (placeCode c s) = exec i { s with resetIn := false, seq := .idle, frameSlot := none })
    ∧ (∀ len addr, i = .beginWrite len addr →
      step (placeCode c s) = exec i { s with resetIn := false, seq := .idle, frameSlot := none, pbuf := s.pbuf.take 256 })
    ∧ (s.pbuf.length ≤ 256 → step (placeCode c s) = exec i { s with resetIn := false, seq := .idle, frameSlot := none })

/-- Reset: control state idle, FAULT and FCAUSE cleared, the buffers and results without value, MODE unknown, no event, the
device untouched, in the middle of a command too (70_reset_and_hazards.md R190, R191; what SIG, ACC, ADDR and LEN hold is
not stated: they are free, log 1 and log 2). That the caller's waiting commands and the list of levels to come survive a
reset, and that the step clears the reset request, are the model's choice and no rule of the spec (log 13). -/
def Obligations.ResetClearsControl : Prop :=
  ∀ s : State, s.resetIn = true → ∃ t, step s = .next t
    ∧ t.seq = .idle ∧ t.framer = .idle ∧ t.fault = false ∧ t.fcause = .noFault ∧ t.mode = .unknown
    ∧ (∀ i, t.hostReadRbuf i = none) ∧ (∀ i, t.pbufEntry i = none) ∧ t.hostReadBusy = none ∧ t.hostReadRc = none
    ∧ t.trace = s.trace ∧ t.misoIn = s.misoIn ∧ t.caller = s.caller ∧ t.resetIn = false

/-- The state after power-on: the values 10_state.md section 7 gives, and nothing emitted. -/
def Obligations.PowerOnState : Prop :=
  State.reset.seq = .idle ∧ State.reset.framer = .idle ∧ State.reset.fault = false ∧ State.reset.fcause = .noFault
  ∧ State.reset.mode = .unknown ∧ (∀ i, State.reset.hostReadRbuf i = none) ∧ (∀ i, State.reset.pbufEntry i = none)
  ∧ State.reset.hostReadBusy = none ∧ State.reset.hostReadRc = none ∧ State.reset.trace = []
  ∧ State.reset.pins = ⟨none, none, none, none, none⟩

/-- After any reset the nine Command Protocol commands fault with F_MODE; `init` executes and makes the block ready, and its
first event raises CHIP_SELECT whatever a reset in the middle of a frame left (spec/70_reset_and_hazards.md sections 1, 2). -/
def Obligations.InitMustComeFirst : Prop :=
  ∀ (len : Length) (addr : Address) (s : State),
    (∀ op : HostOp, op ≠ .init → op ≠ .teardown →
      exec (op.instr len addr) (applyReset s) =
        .next { applyReset s with fault := true, fcause := .mode op.code })
    ∧ ∃ t es, exec (.init len addr) (applyReset s) = .next t ∧ s.Emitted t es ∧ t.Ready
      ∧ es.head? = some (evW false false true false)

/-- A host address wider than 24 bits is truncated to its low 24 bits when it is loaded, and only those reach the wire
(spec/10_state.md section 2; spec/92_eei_decisions.md D12), for each of the four calls that take an address. -/
def Obligations.WideAddressTruncated : Prop :=
  ∀ (address : Nat) (data : List Byte) (len : Length) (s : State) (rest : List Request),
    s.Ready → s.resetIn = false → s.frameSlot = none →
    let a : List Byte :=
      [BitVec.ofNat 8 (address / 65536), BitVec.ofNat 8 (address / 256), BitVec.ofNat 8 address]
    (s.caller = (Call.beginErase4K address).request :: rest →
      ∃ t, step s = .next t ∧ t.addr.toNat = address % 2 ^ 24
        ∧ t = ({ s with caller := rest, addr := t.addr }.afterSend [0x06#8]).afterSend (0x20#8 :: a))
    ∧ (s.caller = (Call.beginErase32K address).request :: rest →
      ∃ t, step s = .next t ∧ t.addr.toNat = address % 2 ^ 24
        ∧ t = ({ s with caller := rest, addr := t.addr }.afterSend [0x06#8]).afterSend (0x52#8 :: a))
    ∧ (s.caller = (Call.beginErase64K address).request :: rest →
      ∃ t, step s = .next t ∧ t.addr.toNat = address % 2 ^ 24
        ∧ t = ({ s with caller := rest, addr := t.addr }.afterSend [0x06#8]).afterSend (0xD8#8 :: a))
    ∧ (s.caller = (Call.beginWrite address data len).request :: rest → min len.toNat 256 ≤ data.length →
      ∃ t, step s = .next t ∧ t.addr.toNat = address % 2 ^ 24 ∧ t.len = len
        ∧ t = ({ s with caller := rest, pbuf := data.take 256, addr := t.addr, len := len }.afterSend
            [0x06#8]).afterSend (0x02#8 :: a ++ data.take (min len.toNat 256)))

/-- The address bytes of the four frames that name an address, as the wire decoder reads them when the frame is executed
bare, which only the model's frame slot makes possible (log 7; spec/30_encoding.md section 3). -/
def Obligations.BareFrameAddressBytes : Prop :=
  ∀ (addr : Address) (payload : List Byte), payload.length ≤ 256 →
    let a : List Byte :=
      [BitVec.ofNat 8 (addr.toNat / 65536), BitVec.ofNat 8 (addr.toNat / 256), BitVec.ofNat 8 addr.toNat]
    ∀ (s t : State) (es : List Event), s.Idle → s.Emitted t es →
      (exec (.erase4K addr) s = .next t → wireDecode es = [0x20#8 :: a])
      ∧ (exec (.erase32K addr) s = .next t → wireDecode es = [0x52#8 :: a])
      ∧ (exec (.erase64K addr) s = .next t → wireDecode es = [0xD8#8 :: a])
      ∧ (exec (.pageProgram addr payload) s = .next t → wireDecode es = [0x02#8 :: a ++ payload])

/-- Only the payload supplied with a `beginWrite` counts, whatever PBUF held before, and a command without one supplies
nothing: with fewer than min(LEN, 256) bytes supplied the step is the fault F_OPERAND with the first missing index; otherwise
exactly those bytes are sent (spec/10_state.md section 3; spec/60_exceptions.md section 1; log 6). -/
def Obligations.PayloadTravelsWithCommand : Prop :=
  ∀ (len : Length) (addr : Address) (payload : Option (List Byte)) (s : State) (rest : List Request),
    s.seq = .idle → s.mode = .bitBang → s.resetIn = false → s.frameSlot = none →
    s.caller = ⟨hostWord 0x8#4 len addr, payload⟩ :: rest →
    let n := min len.toNat 256
    let bytes := (payload.getD []).take 256
    let a : List Byte := [addr.extractLsb' 16 8, addr.extractLsb' 8 8, addr.extractLsb' 0 8]
    (bytes.length < n →
      step s = .next
        { s with
          caller := rest, pbuf := bytes, fault := true, fcause := if s.fault then s.fcause else .operand bytes.length })
    ∧ (s.framer = .idle → n ≤ bytes.length →
      step s = .next
        (({ s with caller := rest, pbuf := bytes, addr := addr, len := len }.afterSend [0x06#8]).afterSend
          (0x02#8 :: a ++ bytes.take n)))
end

