-- ==== Sys2Proof/Laws/State.lean ====
section
/-! SUPPORT. One lemma for each field of each update of the state, so that no later proof unfolds a record update. -/

namespace Sys2Proof.Machine

/-! ### `writeSignals` -/

@[simp] theorem writeSignals_sig (c m s e : Bool) (st : State) : (writeSignals c m s e st).sig = ⟨c, m, s, e⟩ := rfl
@[simp] theorem writeSignals_mode (c m s e : Bool) (st : State) : (writeSignals c m s e st).mode = st.mode := rfl
@[simp] theorem writeSignals_acc (c m s e : Bool) (st : State) : (writeSignals c m s e st).acc = st.acc := rfl
@[simp] theorem writeSignals_addr (c m s e : Bool) (st : State) : (writeSignals c m s e st).addr = st.addr := rfl
@[simp] theorem writeSignals_len (c m s e : Bool) (st : State) : (writeSignals c m s e st).len = st.len := rfl
@[simp] theorem writeSignals_rbuf (c m s e : Bool) (st : State) : (writeSignals c m s e st).rbuf = st.rbuf := rfl
@[simp] theorem writeSignals_pbuf (c m s e : Bool) (st : State) : (writeSignals c m s e st).pbuf = st.pbuf := rfl
@[simp] theorem writeSignals_busy (c m s e : Bool) (st : State) : (writeSignals c m s e st).busy = st.busy := rfl
@[simp] theorem writeSignals_rc (c m s e : Bool) (st : State) : (writeSignals c m s e st).rc = st.rc := rfl
@[simp] theorem writeSignals_seq (c m s e : Bool) (st : State) : (writeSignals c m s e st).seq = st.seq := rfl
@[simp] theorem writeSignals_framer (c m s e : Bool) (st : State) : (writeSignals c m s e st).framer = st.framer := rfl
@[simp] theorem writeSignals_fault (c m s e : Bool) (st : State) : (writeSignals c m s e st).fault = st.fault := rfl
@[simp] theorem writeSignals_fcause (c m s e : Bool) (st : State) : (writeSignals c m s e st).fcause = st.fcause := rfl
@[simp] theorem writeSignals_misoIn (c m s e : Bool) (st : State) : (writeSignals c m s e st).misoIn = st.misoIn := rfl
@[simp] theorem writeSignals_trace (c m s e : Bool) (st : State) : (writeSignals c m s e st).trace = .write ⟨c, m, s, e⟩ :: st.trace := rfl
@[simp] theorem writeSignals_caller (c m s e : Bool) (st : State) : (writeSignals c m s e st).caller = st.caller := rfl
@[simp] theorem writeSignals_frameSlot (c m s e : Bool) (st : State) : (writeSignals c m s e st).frameSlot = st.frameSlot := rfl
@[simp] theorem writeSignals_resetIn (c m s e : Bool) (st : State) : (writeSignals c m s e st).resetIn = st.resetIn := rfl
@[simp] theorem writeSignals_resets (c m s e : Bool) (st : State) : (writeSignals c m s e st).resets = st.resets := rfl

/-! ### `afterRead` -/

@[simp] theorem afterRead_sig (st : State) : (afterRead st).sig = st.sig := rfl
@[simp] theorem afterRead_mode (st : State) : (afterRead st).mode = st.mode := rfl
@[simp] theorem afterRead_acc (st : State) : (afterRead st).acc = st.acc := rfl
@[simp] theorem afterRead_addr (st : State) : (afterRead st).addr = st.addr := rfl
@[simp] theorem afterRead_len (st : State) : (afterRead st).len = st.len := rfl
@[simp] theorem afterRead_rbuf (st : State) : (afterRead st).rbuf = st.rbuf := rfl
@[simp] theorem afterRead_pbuf (st : State) : (afterRead st).pbuf = st.pbuf := rfl
@[simp] theorem afterRead_busy (st : State) : (afterRead st).busy = st.busy := rfl
@[simp] theorem afterRead_rc (st : State) : (afterRead st).rc = st.rc := rfl
@[simp] theorem afterRead_seq (st : State) : (afterRead st).seq = st.seq := rfl
@[simp] theorem afterRead_framer (st : State) : (afterRead st).framer = st.framer := rfl
@[simp] theorem afterRead_fault (st : State) : (afterRead st).fault = st.fault := rfl
@[simp] theorem afterRead_fcause (st : State) : (afterRead st).fcause = st.fcause := rfl
@[simp] theorem afterRead_misoIn (st : State) : (afterRead st).misoIn = st.misoIn.tail := rfl
@[simp] theorem afterRead_trace (st : State) : (afterRead st).trace = .read (misoLevel st) :: st.trace := rfl
@[simp] theorem afterRead_caller (st : State) : (afterRead st).caller = st.caller := rfl
@[simp] theorem afterRead_frameSlot (st : State) : (afterRead st).frameSlot = st.frameSlot := rfl
@[simp] theorem afterRead_resetIn (st : State) : (afterRead st).resetIn = st.resetIn := rfl
@[simp] theorem afterRead_resets (st : State) : (afterRead st).resets = st.resets := rfl

/-! ### `selectMode` -/

@[simp] theorem selectMode_sig (x : AccessMode) (st : State) : (selectMode x st).sig = st.sig := rfl
@[simp] theorem selectMode_mode (x : AccessMode) (st : State) : (selectMode x st).mode = modeAfter x := rfl
@[simp] theorem selectMode_acc (x : AccessMode) (st : State) : (selectMode x st).acc = st.acc := rfl
@[simp] theorem selectMode_addr (x : AccessMode) (st : State) : (selectMode x st).addr = st.addr := rfl
@[simp] theorem selectMode_len (x : AccessMode) (st : State) : (selectMode x st).len = st.len := rfl
@[simp] theorem selectMode_rbuf (x : AccessMode) (st : State) : (selectMode x st).rbuf = st.rbuf := rfl
@[simp] theorem selectMode_pbuf (x : AccessMode) (st : State) : (selectMode x st).pbuf = st.pbuf := rfl
@[simp] theorem selectMode_busy (x : AccessMode) (st : State) : (selectMode x st).busy = st.busy := rfl
@[simp] theorem selectMode_rc (x : AccessMode) (st : State) : (selectMode x st).rc = st.rc := rfl
@[simp] theorem selectMode_seq (x : AccessMode) (st : State) : (selectMode x st).seq = st.seq := rfl
@[simp] theorem selectMode_framer (x : AccessMode) (st : State) : (selectMode x st).framer = st.framer := rfl
@[simp] theorem selectMode_fault (x : AccessMode) (st : State) : (selectMode x st).fault = st.fault := rfl
@[simp] theorem selectMode_fcause (x : AccessMode) (st : State) : (selectMode x st).fcause = st.fcause := rfl
@[simp] theorem selectMode_misoIn (x : AccessMode) (st : State) : (selectMode x st).misoIn = st.misoIn := rfl
@[simp] theorem selectMode_trace (x : AccessMode) (st : State) : (selectMode x st).trace = .selectMode x :: st.trace := rfl
@[simp] theorem selectMode_caller (x : AccessMode) (st : State) : (selectMode x st).caller = st.caller := rfl
@[simp] theorem selectMode_frameSlot (x : AccessMode) (st : State) : (selectMode x st).frameSlot = st.frameSlot := rfl
@[simp] theorem selectMode_resetIn (x : AccessMode) (st : State) : (selectMode x st).resetIn = st.resetIn := rfl
@[simp] theorem selectMode_resets (x : AccessMode) (st : State) : (selectMode x st).resets = st.resets := rfl

/-! ### `delayPoint` -/

@[simp] theorem delayPoint_sig (t : Nat) (st : State) : (delayPoint t st).sig = st.sig := rfl
@[simp] theorem delayPoint_mode (t : Nat) (st : State) : (delayPoint t st).mode = st.mode := rfl
@[simp] theorem delayPoint_acc (t : Nat) (st : State) : (delayPoint t st).acc = st.acc := rfl
@[simp] theorem delayPoint_addr (t : Nat) (st : State) : (delayPoint t st).addr = st.addr := rfl
@[simp] theorem delayPoint_len (t : Nat) (st : State) : (delayPoint t st).len = st.len := rfl
@[simp] theorem delayPoint_rbuf (t : Nat) (st : State) : (delayPoint t st).rbuf = st.rbuf := rfl
@[simp] theorem delayPoint_pbuf (t : Nat) (st : State) : (delayPoint t st).pbuf = st.pbuf := rfl
@[simp] theorem delayPoint_busy (t : Nat) (st : State) : (delayPoint t st).busy = st.busy := rfl
@[simp] theorem delayPoint_rc (t : Nat) (st : State) : (delayPoint t st).rc = st.rc := rfl
@[simp] theorem delayPoint_seq (t : Nat) (st : State) : (delayPoint t st).seq = st.seq := rfl
@[simp] theorem delayPoint_framer (t : Nat) (st : State) : (delayPoint t st).framer = st.framer := rfl
@[simp] theorem delayPoint_fault (t : Nat) (st : State) : (delayPoint t st).fault = st.fault := rfl
@[simp] theorem delayPoint_fcause (t : Nat) (st : State) : (delayPoint t st).fcause = st.fcause := rfl
@[simp] theorem delayPoint_misoIn (t : Nat) (st : State) : (delayPoint t st).misoIn = st.misoIn := rfl
@[simp] theorem delayPoint_trace (t : Nat) (st : State) : (delayPoint t st).trace = delayEvents t ++ st.trace := rfl
@[simp] theorem delayPoint_caller (t : Nat) (st : State) : (delayPoint t st).caller = st.caller := rfl
@[simp] theorem delayPoint_frameSlot (t : Nat) (st : State) : (delayPoint t st).frameSlot = st.frameSlot := rfl
@[simp] theorem delayPoint_resetIn (t : Nat) (st : State) : (delayPoint t st).resetIn = st.resetIn := rfl
@[simp] theorem delayPoint_resets (t : Nat) (st : State) : (delayPoint t st).resets = st.resets := rfl

/-! ### `loadAddr` -/

@[simp] theorem loadAddr_sig (a : Address) (st : State) : (loadAddr a st).sig = st.sig := rfl
@[simp] theorem loadAddr_mode (a : Address) (st : State) : (loadAddr a st).mode = st.mode := rfl
@[simp] theorem loadAddr_acc (a : Address) (st : State) : (loadAddr a st).acc = st.acc := rfl
@[simp] theorem loadAddr_addr (a : Address) (st : State) : (loadAddr a st).addr = a := rfl
@[simp] theorem loadAddr_len (a : Address) (st : State) : (loadAddr a st).len = st.len := rfl
@[simp] theorem loadAddr_rbuf (a : Address) (st : State) : (loadAddr a st).rbuf = st.rbuf := rfl
@[simp] theorem loadAddr_pbuf (a : Address) (st : State) : (loadAddr a st).pbuf = st.pbuf := rfl
@[simp] theorem loadAddr_busy (a : Address) (st : State) : (loadAddr a st).busy = st.busy := rfl
@[simp] theorem loadAddr_rc (a : Address) (st : State) : (loadAddr a st).rc = st.rc := rfl
@[simp] theorem loadAddr_seq (a : Address) (st : State) : (loadAddr a st).seq = st.seq := rfl
@[simp] theorem loadAddr_framer (a : Address) (st : State) : (loadAddr a st).framer = st.framer := rfl
@[simp] theorem loadAddr_fault (a : Address) (st : State) : (loadAddr a st).fault = st.fault := rfl
@[simp] theorem loadAddr_fcause (a : Address) (st : State) : (loadAddr a st).fcause = st.fcause := rfl
@[simp] theorem loadAddr_misoIn (a : Address) (st : State) : (loadAddr a st).misoIn = st.misoIn := rfl
@[simp] theorem loadAddr_trace (a : Address) (st : State) : (loadAddr a st).trace = st.trace := rfl
@[simp] theorem loadAddr_caller (a : Address) (st : State) : (loadAddr a st).caller = st.caller := rfl
@[simp] theorem loadAddr_frameSlot (a : Address) (st : State) : (loadAddr a st).frameSlot = st.frameSlot := rfl
@[simp] theorem loadAddr_resetIn (a : Address) (st : State) : (loadAddr a st).resetIn = st.resetIn := rfl
@[simp] theorem loadAddr_resets (a : Address) (st : State) : (loadAddr a st).resets = st.resets := rfl

/-! ### `loadLen` -/

@[simp] theorem loadLen_sig (n : Length) (st : State) : (loadLen n st).sig = st.sig := rfl
@[simp] theorem loadLen_mode (n : Length) (st : State) : (loadLen n st).mode = st.mode := rfl
@[simp] theorem loadLen_acc (n : Length) (st : State) : (loadLen n st).acc = st.acc := rfl
@[simp] theorem loadLen_addr (n : Length) (st : State) : (loadLen n st).addr = st.addr := rfl
@[simp] theorem loadLen_len (n : Length) (st : State) : (loadLen n st).len = n := rfl
@[simp] theorem loadLen_rbuf (n : Length) (st : State) : (loadLen n st).rbuf = st.rbuf := rfl
@[simp] theorem loadLen_pbuf (n : Length) (st : State) : (loadLen n st).pbuf = st.pbuf := rfl
@[simp] theorem loadLen_busy (n : Length) (st : State) : (loadLen n st).busy = st.busy := rfl
@[simp] theorem loadLen_rc (n : Length) (st : State) : (loadLen n st).rc = st.rc := rfl
@[simp] theorem loadLen_seq (n : Length) (st : State) : (loadLen n st).seq = st.seq := rfl
@[simp] theorem loadLen_framer (n : Length) (st : State) : (loadLen n st).framer = st.framer := rfl
@[simp] theorem loadLen_fault (n : Length) (st : State) : (loadLen n st).fault = st.fault := rfl
@[simp] theorem loadLen_fcause (n : Length) (st : State) : (loadLen n st).fcause = st.fcause := rfl
@[simp] theorem loadLen_misoIn (n : Length) (st : State) : (loadLen n st).misoIn = st.misoIn := rfl
@[simp] theorem loadLen_trace (n : Length) (st : State) : (loadLen n st).trace = st.trace := rfl
@[simp] theorem loadLen_caller (n : Length) (st : State) : (loadLen n st).caller = st.caller := rfl
@[simp] theorem loadLen_frameSlot (n : Length) (st : State) : (loadLen n st).frameSlot = st.frameSlot := rfl
@[simp] theorem loadLen_resetIn (n : Length) (st : State) : (loadLen n st).resetIn = st.resetIn := rfl
@[simp] theorem loadLen_resets (n : Length) (st : State) : (loadLen n st).resets = st.resets := rfl

/-! ### `storeResponse` -/

@[simp] theorem storeResponse_sig (k : Nat) (bs : List Byte) (st : State) : (storeResponse k bs st).sig = st.sig := rfl
@[simp] theorem storeResponse_mode (k : Nat) (bs : List Byte) (st : State) : (storeResponse k bs st).mode = st.mode := rfl
@[simp] theorem storeResponse_acc (k : Nat) (bs : List Byte) (st : State) : (storeResponse k bs st).acc = st.acc := rfl
@[simp] theorem storeResponse_addr (k : Nat) (bs : List Byte) (st : State) : (storeResponse k bs st).addr = st.addr := rfl
@[simp] theorem storeResponse_len (k : Nat) (bs : List Byte) (st : State) : (storeResponse k bs st).len = st.len := rfl
@[simp] theorem storeResponse_rbuf (k : Nat) (bs : List Byte) (st : State) : (storeResponse k bs st).rbuf = storeFrom st.rbuf k bs := rfl
@[simp] theorem storeResponse_pbuf (k : Nat) (bs : List Byte) (st : State) : (storeResponse k bs st).pbuf = st.pbuf := rfl
@[simp] theorem storeResponse_busy (k : Nat) (bs : List Byte) (st : State) : (storeResponse k bs st).busy = st.busy := rfl
@[simp] theorem storeResponse_rc (k : Nat) (bs : List Byte) (st : State) : (storeResponse k bs st).rc = st.rc := rfl
@[simp] theorem storeResponse_seq (k : Nat) (bs : List Byte) (st : State) : (storeResponse k bs st).seq = st.seq := rfl
@[simp] theorem storeResponse_framer (k : Nat) (bs : List Byte) (st : State) : (storeResponse k bs st).framer = st.framer := rfl
@[simp] theorem storeResponse_fault (k : Nat) (bs : List Byte) (st : State) : (storeResponse k bs st).fault = st.fault := rfl
@[simp] theorem storeResponse_fcause (k : Nat) (bs : List Byte) (st : State) : (storeResponse k bs st).fcause = st.fcause := rfl
@[simp] theorem storeResponse_misoIn (k : Nat) (bs : List Byte) (st : State) : (storeResponse k bs st).misoIn = st.misoIn := rfl
@[simp] theorem storeResponse_trace (k : Nat) (bs : List Byte) (st : State) : (storeResponse k bs st).trace = st.trace := rfl
@[simp] theorem storeResponse_caller (k : Nat) (bs : List Byte) (st : State) : (storeResponse k bs st).caller = st.caller := rfl
@[simp] theorem storeResponse_frameSlot (k : Nat) (bs : List Byte) (st : State) : (storeResponse k bs st).frameSlot = st.frameSlot := rfl
@[simp] theorem storeResponse_resetIn (k : Nat) (bs : List Byte) (st : State) : (storeResponse k bs st).resetIn = st.resetIn := rfl
@[simp] theorem storeResponse_resets (k : Nat) (bs : List Byte) (st : State) : (storeResponse k bs st).resets = st.resets := rfl

/-! ### `storeBusy` -/

@[simp] theorem storeBusy_sig (b : Byte) (st : State) : (storeBusy b st).sig = st.sig := rfl
@[simp] theorem storeBusy_mode (b : Byte) (st : State) : (storeBusy b st).mode = st.mode := rfl
@[simp] theorem storeBusy_acc (b : Byte) (st : State) : (storeBusy b st).acc = st.acc := rfl
@[simp] theorem storeBusy_addr (b : Byte) (st : State) : (storeBusy b st).addr = st.addr := rfl
@[simp] theorem storeBusy_len (b : Byte) (st : State) : (storeBusy b st).len = st.len := rfl
@[simp] theorem storeBusy_rbuf (b : Byte) (st : State) : (storeBusy b st).rbuf = st.rbuf := rfl
@[simp] theorem storeBusy_pbuf (b : Byte) (st : State) : (storeBusy b st).pbuf = st.pbuf := rfl
@[simp] theorem storeBusy_busy (b : Byte) (st : State) : (storeBusy b st).busy = some (busyFlag b) := rfl
@[simp] theorem storeBusy_rc (b : Byte) (st : State) : (storeBusy b st).rc = st.rc := rfl
@[simp] theorem storeBusy_seq (b : Byte) (st : State) : (storeBusy b st).seq = st.seq := rfl
@[simp] theorem storeBusy_framer (b : Byte) (st : State) : (storeBusy b st).framer = st.framer := rfl
@[simp] theorem storeBusy_fault (b : Byte) (st : State) : (storeBusy b st).fault = st.fault := rfl
@[simp] theorem storeBusy_fcause (b : Byte) (st : State) : (storeBusy b st).fcause = st.fcause := rfl
@[simp] theorem storeBusy_misoIn (b : Byte) (st : State) : (storeBusy b st).misoIn = st.misoIn := rfl
@[simp] theorem storeBusy_trace (b : Byte) (st : State) : (storeBusy b st).trace = st.trace := rfl
@[simp] theorem storeBusy_caller (b : Byte) (st : State) : (storeBusy b st).caller = st.caller := rfl
@[simp] theorem storeBusy_frameSlot (b : Byte) (st : State) : (storeBusy b st).frameSlot = st.frameSlot := rfl
@[simp] theorem storeBusy_resetIn (b : Byte) (st : State) : (storeBusy b st).resetIn = st.resetIn := rfl
@[simp] theorem storeBusy_resets (b : Byte) (st : State) : (storeBusy b st).resets = st.resets := rfl

/-! ### `storeSuccess` -/

@[simp] theorem storeSuccess_sig (st : State) : (storeSuccess st).sig = st.sig := rfl
@[simp] theorem storeSuccess_mode (st : State) : (storeSuccess st).mode = st.mode := rfl
@[simp] theorem storeSuccess_acc (st : State) : (storeSuccess st).acc = st.acc := rfl
@[simp] theorem storeSuccess_addr (st : State) : (storeSuccess st).addr = st.addr := rfl
@[simp] theorem storeSuccess_len (st : State) : (storeSuccess st).len = st.len := rfl
@[simp] theorem storeSuccess_rbuf (st : State) : (storeSuccess st).rbuf = st.rbuf := rfl
@[simp] theorem storeSuccess_pbuf (st : State) : (storeSuccess st).pbuf = st.pbuf := rfl
@[simp] theorem storeSuccess_busy (st : State) : (storeSuccess st).busy = st.busy := rfl
@[simp] theorem storeSuccess_rc (st : State) : (storeSuccess st).rc = some Config.rcSuccess := rfl
@[simp] theorem storeSuccess_seq (st : State) : (storeSuccess st).seq = st.seq := rfl
@[simp] theorem storeSuccess_framer (st : State) : (storeSuccess st).framer = st.framer := rfl
@[simp] theorem storeSuccess_fault (st : State) : (storeSuccess st).fault = st.fault := rfl
@[simp] theorem storeSuccess_fcause (st : State) : (storeSuccess st).fcause = st.fcause := rfl
@[simp] theorem storeSuccess_misoIn (st : State) : (storeSuccess st).misoIn = st.misoIn := rfl
@[simp] theorem storeSuccess_trace (st : State) : (storeSuccess st).trace = st.trace := rfl
@[simp] theorem storeSuccess_caller (st : State) : (storeSuccess st).caller = st.caller := rfl
@[simp] theorem storeSuccess_frameSlot (st : State) : (storeSuccess st).frameSlot = st.frameSlot := rfl
@[simp] theorem storeSuccess_resetIn (st : State) : (storeSuccess st).resetIn = st.resetIn := rfl
@[simp] theorem storeSuccess_resets (st : State) : (storeSuccess st).resets = st.resets := rfl

/-! ### `raiseFault` -/

@[simp] theorem raiseFault_sig (c : FaultCause) (st : State) : (raiseFault c st).sig = st.sig := rfl
@[simp] theorem raiseFault_mode (c : FaultCause) (st : State) : (raiseFault c st).mode = st.mode := rfl
@[simp] theorem raiseFault_acc (c : FaultCause) (st : State) : (raiseFault c st).acc = st.acc := rfl
@[simp] theorem raiseFault_addr (c : FaultCause) (st : State) : (raiseFault c st).addr = st.addr := rfl
@[simp] theorem raiseFault_len (c : FaultCause) (st : State) : (raiseFault c st).len = st.len := rfl
@[simp] theorem raiseFault_rbuf (c : FaultCause) (st : State) : (raiseFault c st).rbuf = st.rbuf := rfl
@[simp] theorem raiseFault_pbuf (c : FaultCause) (st : State) : (raiseFault c st).pbuf = st.pbuf := rfl
@[simp] theorem raiseFault_busy (c : FaultCause) (st : State) : (raiseFault c st).busy = st.busy := rfl
@[simp] theorem raiseFault_rc (c : FaultCause) (st : State) : (raiseFault c st).rc = st.rc := rfl
@[simp] theorem raiseFault_seq (c : FaultCause) (st : State) : (raiseFault c st).seq = .idle := rfl
@[simp] theorem raiseFault_framer (c : FaultCause) (st : State) : (raiseFault c st).framer = st.framer := rfl
@[simp] theorem raiseFault_fault (c : FaultCause) (st : State) : (raiseFault c st).fault = true := rfl
@[simp] theorem raiseFault_fcause (c : FaultCause) (st : State) : (raiseFault c st).fcause = if st.fault then st.fcause else c := rfl
@[simp] theorem raiseFault_misoIn (c : FaultCause) (st : State) : (raiseFault c st).misoIn = st.misoIn := rfl
@[simp] theorem raiseFault_trace (c : FaultCause) (st : State) : (raiseFault c st).trace = st.trace := rfl
@[simp] theorem raiseFault_caller (c : FaultCause) (st : State) : (raiseFault c st).caller = st.caller := rfl
@[simp] theorem raiseFault_frameSlot (c : FaultCause) (st : State) : (raiseFault c st).frameSlot = st.frameSlot := rfl
@[simp] theorem raiseFault_resetIn (c : FaultCause) (st : State) : (raiseFault c st).resetIn = st.resetIn := rfl
@[simp] theorem raiseFault_resets (c : FaultCause) (st : State) : (raiseFault c st).resets = st.resets := rfl

/-! ### `State.afterFrame` -/

@[simp] theorem afterFrame_sig (st : State) (bs : List Byte) (q : Nat) (bits : List Bool) :
    (st.afterFrame bs q bits).sig = Signals.rest := rfl
@[simp] theorem afterFrame_mode (st : State) (bs : List Byte) (q : Nat) (bits : List Bool) :
    (st.afterFrame bs q bits).mode = st.mode := rfl
@[simp] theorem afterFrame_acc (st : State) (bs : List Byte) (q : Nat) (bits : List Bool) :
    (st.afterFrame bs q bits).acc = (receivedBytes q bits).getLastD st.acc := rfl
@[simp] theorem afterFrame_addr (st : State) (bs : List Byte) (q : Nat) (bits : List Bool) :
    (st.afterFrame bs q bits).addr = st.addr := rfl
@[simp] theorem afterFrame_len (st : State) (bs : List Byte) (q : Nat) (bits : List Bool) :
    (st.afterFrame bs q bits).len = st.len := rfl
@[simp] theorem afterFrame_rbuf (st : State) (bs : List Byte) (q : Nat) (bits : List Bool) :
    (st.afterFrame bs q bits).rbuf = st.rbuf := rfl
@[simp] theorem afterFrame_pbuf (st : State) (bs : List Byte) (q : Nat) (bits : List Bool) :
    (st.afterFrame bs q bits).pbuf = st.pbuf := rfl
@[simp] theorem afterFrame_busy (st : State) (bs : List Byte) (q : Nat) (bits : List Bool) :
    (st.afterFrame bs q bits).busy = st.busy := rfl
@[simp] theorem afterFrame_rc (st : State) (bs : List Byte) (q : Nat) (bits : List Bool) :
    (st.afterFrame bs q bits).rc = st.rc := rfl
@[simp] theorem afterFrame_seq (st : State) (bs : List Byte) (q : Nat) (bits : List Bool) :
    (st.afterFrame bs q bits).seq = st.seq := rfl
@[simp] theorem afterFrame_framer (st : State) (bs : List Byte) (q : Nat) (bits : List Bool) :
    (st.afterFrame bs q bits).framer = st.framer := rfl
@[simp] theorem afterFrame_fault (st : State) (bs : List Byte) (q : Nat) (bits : List Bool) :
    (st.afterFrame bs q bits).fault = st.fault := rfl
@[simp] theorem afterFrame_fcause (st : State) (bs : List Byte) (q : Nat) (bits : List Bool) :
    (st.afterFrame bs q bits).fcause = st.fcause := rfl
@[simp] theorem afterFrame_misoIn (st : State) (bs : List Byte) (q : Nat) (bits : List Bool) :
    (st.afterFrame bs q bits).misoIn = st.misoIn.drop (8 * q) := rfl
@[simp] theorem afterFrame_trace (st : State) (bs : List Byte) (q : Nat) (bits : List Bool) :
    (st.afterFrame bs q bits).trace = (frameEvents bs q bits).reverse ++ st.trace := rfl
@[simp] theorem afterFrame_caller (st : State) (bs : List Byte) (q : Nat) (bits : List Bool) :
    (st.afterFrame bs q bits).caller = st.caller := rfl
@[simp] theorem afterFrame_frameSlot (st : State) (bs : List Byte) (q : Nat) (bits : List Bool) :
    (st.afterFrame bs q bits).frameSlot = st.frameSlot := rfl
@[simp] theorem afterFrame_resetIn (st : State) (bs : List Byte) (q : Nat) (bits : List Bool) :
    (st.afterFrame bs q bits).resetIn = st.resetIn := rfl
@[simp] theorem afterFrame_resets (st : State) (bs : List Byte) (q : Nat) (bits : List Bool) :
    (st.afterFrame bs q bits).resets = st.resets := rfl

end Sys2Proof.Machine
end

