-- ==== Sys2Proof/Laws/Transport.lean ====
section
/-! SUPPORT. What the Bit Transport does, once: the state `transmitByte` and `receiveByte` leave, with their events. -/

namespace Sys2Proof.Machine

/-- The events of the bits `n-1` down to 0 of a byte, in time order. -/
def lowBitsEvents (v : Byte) (n : Nat) : List Event :=
  match n with
  | 0 => []
  | n + 1 => bitEvents (byteBit v n) ++ lowBitsEvents v n

theorem lowBitsEvents_byte (v : Byte) : lowBitsEvents v 8 = byteEvents v := by
  simp [lowBitsEvents, byteEvents, byteBits]

theorem transmitBit_eq (b : Bool) (s : State) :
    transmitBit b s =
      { s with sig := ⟨false, b, false, false⟩, trace := (bitEvents b).reverse ++ s.trace } := rfl

/-- The bits `n` down to 0 leave MOSI at bit 0 and their events on the trace. -/
theorem transmitBits_eq (v : Byte) (n : Nat) (s : State) :
    transmitBits v (n + 1) s =
      { s with
        sig := ⟨false, byteBit v 0, false, false⟩
        trace := (lowBitsEvents v (n + 1)).reverse ++ s.trace } := by
  induction n generalizing s with
  | zero => rfl
  | succ n ih =>
    rw [transmitBits, ih, transmitBit_eq]
    simp [lowBitsEvents]

/-- `transmitByte` inside a transaction (R100). -/
theorem transmitByte_active (v : Byte) (s : State) (h : s.framer = .active) :
    transmitByte v s =
      .done ()
        { s with
          sig := ⟨false, byteBit v 0, false, false⟩
          trace := (byteEvents v).reverse ++ s.trace } := by
  have hrun : transmitByte v s = .done () (transmitBits v 8 s) := by simp [transmitByte, h]
  rw [hrun, transmitBits_eq, lowBitsEvents_byte]

/-- `transmitByte` outside a transaction is fault entry (R100, R162). -/
theorem transmitByte_idle (v : Byte) (s : State) (h : s.framer = .idle) :
    transmitByte v s = .raised (raiseFault .frame s) := by
  simp [transmitByte, h]

theorem receiveBit_eq (s : State) :
    receiveBit s =
      { s with
        sig := ⟨false, false, false, true⟩
        acc := shiftIn s.acc (misoLevel (writeSignals true false false true s))
        misoIn := s.misoIn.tail
        trace := (sampleEvents (misoLevel (writeSignals true false false true s))).reverse ++ s.trace } := rfl

theorem misoLevel_eq_head (s : State) (b : Bool) (bs : List Bool) (h : s.misoIn = b :: bs) : misoLevel s = b := by
  simp [misoLevel, h]

/-- `n` received bits: some bits, the environment's own where it has that many, shifted into `ACC`. -/
theorem receiveBits_eq (n : Nat) (s : State) (h : s.sig = ⟨false, false, false, true⟩) :
    ∃ bits : List Bool, s.Drew n bits ∧
      receiveBits n s =
        { s with
          acc := bits.foldl shiftIn s.acc
          misoIn := s.misoIn.drop n
          trace := (bits.flatMap sampleEvents).reverse ++ s.trace } := by
  induction n generalizing s with
  | zero => exact ⟨[], ⟨rfl, by simp⟩, by simp [receiveBits]⟩
  | succ n ih =>
    obtain ⟨bits, ⟨hlen, hin⟩, heq⟩ := ih (receiveBit s) (by rw [receiveBit_eq])
    refine ⟨misoLevel (writeSignals true false false true s) :: bits, ⟨by simp [hlen], ?_⟩, ?_⟩
    · cases hm : s.misoIn with
      | nil => simp
      | cons b bs =>
        have hb : misoLevel (writeSignals true false false true s) = b :=
          misoLevel_eq_head _ b bs (by simp [hm])
        have hbits : bits.take bs.length = bs.take n := by simpa [receiveBit_eq, hm] using hin
        simp [hb, hbits]
    · rw [receiveBits, heq, receiveBit_eq]
      simp [← h, List.foldl]

theorem startReceive_eq (s : State) :
    startReceive s =
      { s with
        sig := ⟨false, false, false, true⟩
        acc := 0x00#8
        trace := evW false false false true :: s.trace } := rfl

/-- `receiveByte` inside a transaction (R101): eight samples, most significant first. -/
theorem receiveByte_active (s : State) (h : s.framer = .active) :
    ∃ bits : List Bool, s.Drew 8 bits ∧
      receiveByte s =
        .done (byteOfBits bits)
          { s with
            sig := ⟨false, false, false, true⟩
            acc := byteOfBits bits
            misoIn := s.misoIn.drop 8
            trace := (receiveEvents bits).reverse ++ s.trace } := by
  obtain ⟨bits, hdrew, heq⟩ := receiveBits_eq 8 (startReceive s) rfl
  refine ⟨bits, hdrew, ?_⟩
  have hrun : receiveByte s =
      .done (receiveBits 8 (startReceive s)).acc (receiveBits 8 (startReceive s)) := by simp [receiveByte, h]
  rw [hrun, heq, startReceive_eq]
  simp [byteOfBits, receiveEvents]

/-- `receiveByte` outside a transaction is fault entry (R101, R162). -/
theorem receiveByte_idle (s : State) (h : s.framer = .idle) :
    receiveByte s = .raised (raiseFault .frame s) := by
  simp [receiveByte, h]

end Sys2Proof.Machine
end

