-- ==== Sys2Proof/Laws/Framing.lean ====
section
/-! SUPPORT. What one frame does, once (spec/42_transaction_framing.md R113). -/

namespace Sys2Proof.Machine

@[simp] theorem andThen_done {α β : Type} (a : α) (s : State) (f : α → State → Result β) :
    (Result.done a s).andThen f = f a s := rfl

@[simp] theorem andThen_raised {α β : Type} (s : State) (f : α → State → Result β) :
    (Result.raised s).andThen f = .raised s := rfl

@[simp] theorem state_done {α : Type} (a : α) (s : State) : (Result.done a s).state = s := rfl

@[simp] theorem state_raised {α : Type} (s : State) : (Result.raised s : Result α).state = s := rfl

theorem beginTransaction_idle (s : State) (h : s.framer = .idle) :
    beginTransaction s =
      .done ()
        { s with
          sig := ⟨false, false, false, false⟩
          trace := evW false false false false :: s.trace
          framer := .active } := by
  simp [beginTransaction, h, writeSignals, evW]

theorem beginTransaction_active (s : State) (h : s.framer = .active) :
    beginTransaction s = .raised (raiseFault .nest s) := by
  simp [beginTransaction, h]

theorem endTransaction_active (s : State) (h : s.framer = .active) :
    endTransaction s =
      .done ()
        { s with
          sig := ⟨false, false, true, false⟩
          trace := evW false false true false :: s.trace
          framer := .idle } := by
  simp [endTransaction, h, writeSignals, evW]

theorem endTransaction_idle (s : State) (h : s.framer = .idle) :
    endTransaction s = .raised (raiseFault .nest s) := by
  simp [endTransaction, h]

/-- The bytes of a frame on the wire. -/
theorem transmitBytes_active (bytes : List Byte) (s : State) (h : s.framer = .active) :
    ∃ v : Signals,
      transmitBytes bytes s =
        .done () { s with sig := v, trace := (bytes.flatMap byteEvents).reverse ++ s.trace } := by
  induction bytes generalizing s with
  | nil => exact ⟨s.sig, rfl⟩
  | cons b rest ih =>
    rw [transmitBytes, transmitByte_active b s h, andThen_done]
    obtain ⟨v, hv⟩ := ih { s with
      sig := ⟨false, byteBit b 0, false, false⟩, trace := (byteEvents b).reverse ++ s.trace } h
    exact ⟨v, by rw [hv]; simp⟩

/-- The sample lists of bytes, the first one split off. -/
theorem sampleByte_append (first rest : List Bool) (h : first.length = 8) (k : Nat) :
    sampleByte (first ++ rest) (k + 1) = sampleByte rest k := by
  have : 8 * (k + 1) = first.length + 8 * k := by omega
  rw [sampleByte, this, List.drop_append]
  simp [sampleByte, List.drop_eq_nil_of_le]

theorem sampleByte_zero_append (first rest : List Bool) (h : first.length = 8) :
    sampleByte (first ++ rest) 0 = first := by
  rw [sampleByte, Nat.mul_zero, List.drop_zero, List.take_left' h]

/-- The events of received bytes, in time order. -/
def responseEvents (count : Nat) (bits : List Bool) : List Event :=
  (List.range count).flatMap fun k => receiveEvents (sampleByte bits k)

theorem responseEvents_succ (n : Nat) (first rest : List Bool) (h : first.length = 8) :
    responseEvents (n + 1) (first ++ rest) = receiveEvents first ++ responseEvents n rest := by
  rw [responseEvents, List.range_succ_eq_map, List.flatMap_cons, sampleByte_zero_append first rest h,
    List.flatMap_map]
  simp only [sampleByte_append first rest h, responseEvents]

theorem receivedBytes_succ (n : Nat) (first rest : List Bool) (h : first.length = 8) :
    receivedBytes (n + 1) (first ++ rest) = byteOfBits first :: receivedBytes n rest := by
  rw [receivedBytes, List.range_succ_eq_map, List.map_cons, sampleByte_zero_append first rest h, List.map_map]
  congr 1
  exact List.map_congr_left fun k _ => by simp [sampleByte_append first rest h]

/-- The received bytes of a frame: `8 * count` samples, the environment's own where it has that many. -/
theorem receiveBytes_active (count : Nat) (s : State) (h : s.framer = .active) :
    ∃ (bits : List Bool) (v : Signals), s.Drew (8 * count) bits ∧
      receiveBytes count s =
        .done (receivedBytes count bits)
          { s with
            sig := v
            acc := (receivedBytes count bits).getLastD s.acc
            misoIn := s.misoIn.drop (8 * count)
            trace := (responseEvents count bits).reverse ++ s.trace } := by
  induction count generalizing s with
  | zero => exact ⟨[], s.sig, ⟨rfl, by simp⟩, by simp [receiveBytes, receivedBytes, responseEvents]⟩
  | succ n ih =>
    obtain ⟨first, ⟨h8, hin8⟩, hbyte⟩ := receiveByte_active s h
    obtain ⟨rest, v, ⟨hlen, hin⟩, heq⟩ := ih { s with
      sig := ⟨false, false, false, true⟩
      acc := byteOfBits first
      misoIn := s.misoIn.drop 8
      trace := (receiveEvents first).reverse ++ s.trace } h
    refine ⟨first ++ rest, v, ⟨by simp [h8, hlen]; omega, ?_⟩, ?_⟩
    · have h2 : rest.take (s.misoIn.length - 8) = (s.misoIn.drop 8).take (8 * n) := by simpa using hin
      rw [List.take_append, hin8, h8, h2, show 8 * (n + 1) = 8 + 8 * n by omega, List.take_add]
    · rw [receiveBytes, hbyte, andThen_done, heq, andThen_done]
      rw [receivedBytes_succ n first rest h8, responseEvents_succ n first rest h8]
      rw [List.getLastD_cons]
      simp [Nat.mul_succ, Nat.add_comm]

/-- One frame from idle (R113): its events, the bytes received, and nothing else changed but what `afterFrame` says. -/
theorem frame_idle (bytes : List Byte) (count : Nat) (s : State) (h : s.framer = .idle) :
    ∃ bits : List Bool, s.Drew (8 * count) bits ∧
      frame bytes count s = .done (receivedBytes count bits) (s.afterFrame bytes count bits) := by
  rw [frame, beginTransaction_idle s h, andThen_done]
  obtain ⟨v1, h1⟩ := transmitBytes_active bytes { s with
    sig := ⟨false, false, false, false⟩, trace := evW false false false false :: s.trace, framer := .active } rfl
  rw [h1, andThen_done]
  obtain ⟨bits, v2, hdrew, h2⟩ := receiveBytes_active count { s with
    sig := v1
    trace := (bytes.flatMap byteEvents).reverse ++ (evW false false false false :: s.trace)
    framer := .active } rfl
  refine ⟨bits, hdrew, ?_⟩
  rw [h2, andThen_done, endTransaction_active _ rfl, andThen_done]
  simp [State.afterFrame, frameEvents, responseEvents, Signals.rest, ← h]

/-- A frame while a transaction is in progress is fault entry (R110, R162). -/
theorem frame_active (bytes : List Byte) (count : Nat) (s : State) (h : s.framer = .active) :
    frame bytes count s = .raised (raiseFault .nest s) := by
  rw [frame, beginTransaction_active s h, andThen_raised]

/-- A frame that receives nothing, from idle. -/
theorem frame_send (bytes : List Byte) (s : State) (h : s.framer = .idle) :
    frame bytes 0 s = .done [] (s.afterSend bytes) := by
  obtain ⟨bits, ⟨hlen, _⟩, heq⟩ := frame_idle bytes 0 s h
  rw [heq, List.eq_nil_of_length_eq_zero hlen]
  rfl

/-- The frame of a descriptor row, from idle. -/
theorem sendFrame_idle (f : FrameName) (addr : Address) (payload : List Byte) (s : State) (h : s.framer = .idle) :
    ∃ bits : List Bool, s.Drew (8 * (descriptor f).received) bits ∧
      sendFrame f addr payload s =
        .done (receivedBytes (descriptor f).received bits)
          (s.afterFrame (frameBytes f addr payload) (descriptor f).received bits) :=
  frame_idle (frameBytes f addr payload) (descriptor f).received s h

/-- The frame of a descriptor row that receives nothing, from idle. -/
theorem sendFrame_send (f : FrameName) (addr : Address) (payload : List Byte) (s : State) (h : s.framer = .idle)
    (hq : (descriptor f).received = 0) :
    sendFrame f addr payload s = .done [] (s.afterSend (frameBytes f addr payload)) := by
  rw [sendFrame, hq, frame_send _ s h]

/-- A descriptor row's frame while a transaction is in progress is fault entry. -/
theorem sendFrame_active (f : FrameName) (addr : Address) (payload : List Byte) (s : State) (h : s.framer = .active) :
    sendFrame f addr payload s = .raised (raiseFault .nest s) :=
  frame_active _ _ s h

end Sys2Proof.Machine
end

