-- ==== Sys2Proof/Laws/Accept.lean ====
section
/-! SUPPORT. What accepting an instruction can lead to, once; and what the two-frame commands do. -/

namespace Sys2Proof.Machine

theorem whenIdle_idle (s after : State) (h : s.seq = .idle) : whenIdle s after = .next after := by
  simp [whenIdle, h]

theorem whenIdle_running (s after : State) (op : HostOp) (k : Nat) (h : s.seq = .running op k) :
    whenIdle s after = .fault .commandInProgress := by
  simp [whenIdle, h]

/-- The one way to a next state. -/
theorem whenIdle_next (s after t : State) (h : whenIdle s after = .next t) : s.seq = .idle ∧ t = after := by
  cases hs : s.seq with
  | idle => rw [whenIdle_idle s after hs] at h; exact ⟨rfl, by injection h with h; exact h.symm⟩
  | running op k => rw [whenIdle_running s after op k hs] at h; cases h

/-- A command none of whose checks applies runs. -/
theorem hostCommand_runs (op : HostOp) (len : Length) (addr : Address) (body : State → Result Unit) (s : State)
    (hs : s.seq = .idle) (ha : admissionFault op len s = none) :
    hostCommand op len addr body s = .next (body (loadOperands op len addr s)).state := by
  rw [hostCommand, whenIdle_idle _ _ hs, ha]

/-- A command one of whose checks applies is fault entry and nothing else. -/
theorem hostCommand_faults (op : HostOp) (len : Length) (addr : Address) (body : State → Result Unit) (s : State)
    (cause : FaultCause) (hs : s.seq = .idle) (ha : admissionFault op len s = some cause) :
    hostCommand op len addr body s = .next (raiseFault cause s) := by
  rw [hostCommand, whenIdle_idle _ _ hs, ha]

/-- The ways a host command can answer a next state. -/
theorem hostCommand_next (op : HostOp) (len : Length) (addr : Address) (body : State → Result Unit) (s t : State)
    (h : hostCommand op len addr body s = .next t) :
    s.seq = .idle ∧
      ((∃ cause, admissionFault op len s = some cause ∧ t = raiseFault cause s) ∨
        (admissionFault op len s = none ∧ t = (body (loadOperands op len addr s)).state)) := by
  obtain ⟨hs, ht⟩ := whenIdle_next _ _ _ h
  cases ha : admissionFault op len s with
  | none => exact ⟨hs, .inr ⟨rfl, by rw [ht, ha]⟩⟩
  | some cause => exact ⟨hs, .inl ⟨cause, rfl, by rw [ht, ha]⟩⟩

/-- In Bit-Bang mode only the operand check can apply. -/
theorem admissionFault_bitBang (op : HostOp) (len : Length) (s : State) (h : s.mode = .bitBang) :
    admissionFault op len s = operandFault op len s := by
  simp [admissionFault, h]

/-- Outside Bit-Bang mode the mode check applies first (60_exceptions.md R167). -/
theorem admissionFault_mode (op : HostOp) (len : Length) (s : State) (hop : needsBitBang op = true)
    (h : s.mode ≠ .bitBang) : admissionFault op len s = some (.mode op.code) := by
  simp [admissionFault, hop, h]

theorem missingPayload_supplied (len : Length) (s : State) (h : s.Supplied len) :
    missingPayload len s.pbuf = none := by
  simpa [missingPayload, State.Supplied] using h

theorem missingPayload_short (len : Length) (s : State) (h : ¬ s.Supplied len) :
    missingPayload len s.pbuf = some s.pbuf.length := by
  simpa [missingPayload, State.Supplied] using h

/-- Two frames that receive nothing: the write enable, then one that names `ADDR` (R127 to R130). -/
theorem enableThen_idle (f : FrameName) (payload : List Byte) (s : State) (h : s.framer = .idle)
    (hq : (descriptor f).received = 0) :
    enableThen f payload s =
      .done () ((s.afterSend (frameBytes .writeEnable 0 [])).afterSend (frameBytes f s.addr payload)) := by
  rw [enableThen, writeEnable, sendFrame_send _ _ _ s h rfl, andThen_done, andThen_done,
    sendFrame_send _ _ _ (s.afterSend (frameBytes .writeEnable 0 [])) h hq, andThen_done]
  rfl

/-- One lemma for fault entry: what it leaves alone. -/
theorem raiseFault_good (cause : FaultCause) (s : State) (h : s.fault = false) (hs : s.seq = .idle) :
    raiseFault cause s = { s with fault := true, fcause := cause } := by
  simp [raiseFault, h, ← hs]

/-- A second fault leaves everything alone (60_exceptions.md R166). -/
theorem raiseFault_again (cause : FaultCause) (s : State) (h : s.fault = true) (hs : s.seq = .idle) :
    raiseFault cause s = s := by
  simp [raiseFault, h, ← hs]
  cases s; simp_all

end Sys2Proof.Machine
end

