-- ==== Sys2Proof/Laws/Decode.lean ====
section
/-! SUPPORT. The small lemmas of the two encodings: the fields of a host word, the address bytes, the opcodes. -/

namespace Sys2Proof

/-- The bits of a host word (30_encoding.md R61). -/
theorem getLsbD_hostWord (op : BitVec 4) (len : Length) (addr : Address) (i : Nat) :
    (hostWord op len addr).getLsbD i =
      if i < 24 then addr.getLsbD i else if i < 40 then len.getLsbD (i - 24) else op.getLsbD (i - 40) := by
  show ((op ++ len : BitVec (4 + 16)) ++ addr : BitVec (4 + 16 + 24)).getLsbD i = _
  rw [BitVec.getLsbD_append, BitVec.getLsbD_append]
  by_cases h1 : i < 24
  · simp [h1]
  · by_cases h2 : i < 40
    · simp [h1, h2, show i - 24 < 16 by omega]
    · simp [h1, h2, show ¬ i - 24 < 16 by omega, show i - 24 - 16 = i - 40 by omega]

@[simp] theorem opField_hostWord (op : BitVec 4) (len : Length) (addr : Address) :
    opField (hostWord op len addr) = op := by
  apply BitVec.eq_of_getLsbD_eq
  intro i hi
  simp [opField, getLsbD_hostWord, hi, show ¬ 40 + i < 24 by omega]

@[simp] theorem lenField_hostWord (op : BitVec 4) (len : Length) (addr : Address) :
    lenField (hostWord op len addr) = len := by
  apply BitVec.eq_of_getLsbD_eq
  intro i hi
  simp [lenField, getLsbD_hostWord, hi, show 24 + i < 40 by omega]

@[simp] theorem addrField_hostWord (op : BitVec 4) (len : Length) (addr : Address) :
    addrField (hostWord op len addr) = addr := by
  apply BitVec.eq_of_getLsbD_eq
  intro i hi
  simp [addrField, getLsbD_hostWord, hi]

/-- A word is its three fields. -/
theorem hostWord_fields (w : BitVec 44) : hostWord (opField w) (lenField w) (addrField w) = w := by
  apply BitVec.eq_of_getLsbD_eq
  intro i hi
  rw [getLsbD_hostWord]
  by_cases h1 : i < 24
  · simp [h1, addrField]
  · by_cases h2 : i < 40
    · simp [h1, h2, lenField, show i - 24 < 16 by omega, show 24 + (i - 24) = i by omega]
    · simp [h1, h2, opField, show i - 40 < 4 by omega, show 40 + (i - 40) = i by omega]

/-- The words that decode to `beginWrite` are those of its op code (30_encoding.md R61). -/
theorem decodeHost_beginWrite_iff (w : BitVec 44) :
    (∃ len addr, decodeHost w = .beginWrite len addr) ↔ opField w = HostOp.beginWrite.code := by
  constructor
  · rintro ⟨len, addr, h⟩
    unfold decodeHost at h
    split at h <;> cases h
    rename_i h8
    exact BitVec.eq_of_toNat_eq h8
  · intro h
    exact ⟨lenField w, addrField w, by simp [decodeHost, h, HostOp.code]⟩

/-- A payload fits a frame if it has at most 256 bytes (30_encoding.md R65). -/
theorem payloadFits_iff (payload : List Byte) : payloadFits payload = true ↔ payload.length ≤ 256 :=
  decide_eq_true_iff

/-- Every opcode names its own frame: no two rows overlap (30_encoding.md R63). -/
theorem frameOfOpcode_opcode (f : FrameName) : frameOfOpcode (descriptor f).opcode = some f := by
  cases f <;> decide

/-- A byte that names a frame is that frame's opcode. -/
theorem opcode_of_frameOfOpcode (b : Byte) (f : FrameName) (h : frameOfOpcode b = some f) :
    (descriptor f).opcode = b := by
  have := List.find?_some h
  simpa using this

/-- The bits of a joined address. -/
theorem getLsbD_joinAddress (a2 a1 a0 : Byte) (i : Nat) :
    (joinAddress a2 a1 a0).getLsbD i =
      if i < 8 then a0.getLsbD i else if i < 16 then a1.getLsbD (i - 8) else a2.getLsbD (i - 16) := by
  show ((a2 ++ a1 : BitVec (8 + 8)) ++ a0 : BitVec (8 + 8 + 8)).getLsbD i = _
  rw [BitVec.getLsbD_append, BitVec.getLsbD_append]
  by_cases h1 : i < 8
  · simp [h1]
  · by_cases h2 : i < 16
    · simp [h1, h2, show i - 8 < 8 by omega]
    · simp [h1, h2, show ¬ i - 8 < 8 by omega, show i - 8 - 8 = i - 16 by omega]

/-- The address bytes join to the address (30_encoding.md R66). -/
theorem joinAddress_bytes (addr : Address) :
    joinAddress ((addr >>> 16).setWidth 8) ((addr >>> 8).setWidth 8) (addr.setWidth 8) = addr := by
  apply BitVec.eq_of_getLsbD_eq
  intro i hi
  rw [getLsbD_joinAddress]
  by_cases h1 : i < 8
  · simp [h1]
  · by_cases h2 : i < 16
    · simp [h1, h2, show i - 8 < 8 by omega, show 8 + (i - 8) = i by omega]
    · simp [h1, h2, show i - 16 < 8 by omega, show 16 + (i - 16) = i by omega]

/-- The bytes of a joined address are the bytes joined. -/
theorem addressBytes_join (a2 a1 a0 : Byte) : addressBytes (joinAddress a2 a1 a0) = [a2, a1, a0] := by
  have hbyte : ∀ k : Nat, ∀ a : Byte,
      (∀ i, i < 8 → (joinAddress a2 a1 a0).getLsbD (k + i) = a.getLsbD i) →
      (joinAddress a2 a1 a0 >>> k).setWidth 8 = a := by
    intro k a h
    apply BitVec.eq_of_getLsbD_eq
    intro i hi
    simp [hi, h i hi]
  have h2 := hbyte 16 a2 fun i hi => by
    rw [getLsbD_joinAddress]; simp [show ¬ 16 + i < 8 by omega]
  have h1 := hbyte 8 a1 fun i hi => by
    rw [getLsbD_joinAddress]; simp [show 8 + i < 16 by omega]
  have h0 := hbyte 0 a0 fun i hi => by
    rw [getLsbD_joinAddress]; simp [hi]
  rw [BitVec.ushiftRight_zero] at h0
  rw [addressBytes, h2, h1, h0]

end Sys2Proof
end

