-- ==== Sys2Proof/Laws/Exec.lean ====
section
/-! SUPPORT. Everything an instruction can do, said once: a relation between two runs that every primitive operation
keeps is kept by every instruction. With the relation `s1 = s2 ∧ P s1` it speaks about one run. -/

namespace Sys2Proof.Machine

/-- The relation `R` between two states is kept by each primitive operation; `V` relates the bytes received, and `mayMode`
says that a mode write may occur. -/
structure Kept (R : State → State → Prop) (V : Byte → Byte → Prop) (mayMode : Prop) : Prop where
  seq : ∀ {s1 s2}, R s1 s2 → s1.seq = s2.seq
  mode : ∀ {s1 s2}, R s1 s2 → s1.mode = s2.mode
  framer : ∀ {s1 s2}, R s1 s2 → s1.framer = s2.framer
  pbuf : ∀ {s1 s2}, R s1 s2 → s1.pbuf = s2.pbuf
  addr : ∀ {s1 s2}, R s1 s2 → s1.addr = s2.addr
  len : ∀ {s1 s2}, R s1 s2 → s1.len = s2.len
  acc : ∀ {s1 s2}, R s1 s2 → V s1.acc s2.acc
  zero : V 0x00#8 0x00#8
  write : ∀ {s1 s2}, R s1 s2 → ∀ c m cs e, ⟨c, m, cs, e⟩ ∈ Signals.used →
    R (writeSignals c m cs e s1) (writeSignals c m cs e s2)
  setFramer : ∀ {s1 s2}, R s1 s2 → ∀ f, R { s1 with framer := f } { s2 with framer := f }
  clearAcc : ∀ {s1 s2}, R s1 s2 → R { s1 with acc := 0x00#8 } { s2 with acc := 0x00#8 }
  sample : ∀ {s1 s2}, R s1 s2 → R (sampleBit s1) (sampleBit s2)
  selectMode : mayMode → ∀ {s1 s2}, R s1 s2 → ∀ m, R (selectMode m s1) (selectMode m s2)
  delay : ∀ {s1 s2}, R s1 s2 → ∀ ms, R (delayPoint ms s1) (delayPoint ms s2)
  loadAddr : ∀ {s1 s2}, R s1 s2 → ∀ a, R (loadAddr a s1) (loadAddr a s2)
  loadLen : ∀ {s1 s2}, R s1 s2 → ∀ n, R (loadLen n s1) (loadLen n s2)
  response : ∀ {s1 s2}, R s1 s2 → ∀ k q1 q2, List.Forall₂ V q1 q2 → R (storeResponse k q1 s1) (storeResponse k q2 s2)
  busy : ∀ {s1 s2}, R s1 s2 → ∀ b1 b2, V b1 b2 → R (storeBusy b1 s1) (storeBusy b2 s2)
  success : ∀ {s1 s2}, R s1 s2 → R (storeSuccess s1) (storeSuccess s2)
  raise : ∀ {s1 s2}, R s1 s2 → ∀ c, R (raiseFault c s1) (raiseFault c s2)

/-- Two answers of a procedure are of one kind, with related values and related states. -/
def Result.Related {α : Type} (R : State → State → Prop) (W : α → α → Prop) (r1 r2 : Result α) : Prop :=
  match r1, r2 with
  | .done a1 s1, .done a2 s2 => W a1 a2 ∧ R s1 s2
  | .raised s1, .raised s2 => R s1 s2
  | .done _ _, .raised _ => False
  | .raised _, .done _ _ => False

/-- Two outcomes of an instruction: related next states, or both stopped for the same reason. -/
def Outcome.Related (R : State → State → Prop) (o1 o2 : Host.Outcome State Fault Refusal) : Prop :=
  match o1, o2 with
  | .next s1, .next s2 => R s1 s2
  | .fault f1, .fault f2 => f1 = f2
  | .refused r1, .refused r2 => r1 = r2
  | .next _, .fault _ => False
  | .next _, .refused _ => False
  | .fault _, .next _ => False
  | .fault _, .refused _ => False
  | .refused _, .next _ => False
  | .refused _, .fault _ => False

variable {R : State → State → Prop} {V : Byte → Byte → Prop} {mayMode : Prop} {s1 s2 : State}

theorem Result.Related.andThen {α β : Type} {W : α → α → Prop} {X : β → β → Prop} {r1 r2 : Result α}
    {f1 f2 : α → State → Result β} (h : r1.Related R W r2)
    (hf : ∀ a1 a2 t1 t2, W a1 a2 → R t1 t2 → (f1 a1 t1).Related R X (f2 a2 t2)) :
    (r1.andThen f1).Related R X (r2.andThen f2) := by
  cases r1 with
  | done a1 t1 =>
    cases r2 with
    | done a2 t2 => exact hf _ _ _ _ h.1 h.2
    | raised t2 => exact h.elim
  | raised t1 =>
    cases r2 with
    | done a2 t2 => exact h.elim
    | raised t2 => exact h

theorem Result.Related.state {α : Type} {W : α → α → Prop} {r1 r2 : Result α} (h : r1.Related R W r2) :
    R r1.state r2.state := by
  cases r1 with
  | done a1 t1 =>
    cases r2 with
    | done a2 t2 => exact h.2
    | raised t2 => exact h.elim
  | raised t1 =>
    cases r2 with
    | done a2 t2 => exact h.elim
    | raised t2 => exact h

theorem headD_related {q1 q2 : List Byte} (h0 : V 0x00#8 0x00#8) (hq : List.Forall₂ V q1 q2) :
    V (q1.headD 0x00#8) (q2.headD 0x00#8) := by
  cases hq with
  | nil => exact h0
  | cons hb _ => exact hb

namespace Kept

variable (k : Kept R V mayMode)
include k

theorem transmitBit (h : R s1 s2) (b : Bool) : R (transmitBit b s1) (transmitBit b s2) := by
  refine k.write (k.write (k.write h _ _ _ _ ?_) _ _ _ _ ?_) _ _ _ _ ?_ <;> cases b <;> decide

theorem transmitBits (v : Byte) (n : Nat) {s1 s2 : State} (h : R s1 s2) :
    R (transmitBits v n s1) (transmitBits v n s2) := by
  induction n generalizing s1 s2 with
  | zero => exact h
  | succ n ih => exact ih (k.transmitBit h _)

theorem transmitByte (h : R s1 s2) (v : Byte) :
    (transmitByte v s1).Related R (fun _ _ => True) (transmitByte v s2) := by
  have hf := k.framer h
  cases h1 : s1.framer <;> rw [h1] at hf <;> simp only [Machine.transmitByte, h1, ← hf, Result.Related]
  · exact k.raise h _
  · exact ⟨trivial, k.transmitBits v 8 h⟩

theorem receiveBits (n : Nat) {s1 s2 : State} (h : R s1 s2) : R (receiveBits n s1) (receiveBits n s2) := by
  induction n generalizing s1 s2 with
  | zero => exact h
  | succ n ih => exact ih (k.write (k.sample (k.write h _ _ _ _ (by decide))) _ _ _ _ (by decide))

theorem receiveByte (h : R s1 s2) : (receiveByte s1).Related R V (receiveByte s2) := by
  have hf := k.framer h
  have hr : R (Machine.receiveBits 8 (startReceive s1)) (Machine.receiveBits 8 (startReceive s2)) :=
    k.receiveBits 8 (k.clearAcc (k.write h _ _ _ _ (by decide)))
  cases h1 : s1.framer <;> rw [h1] at hf <;> simp only [Machine.receiveByte, h1, ← hf, Result.Related]
  · exact k.raise h _
  · exact ⟨k.acc hr, hr⟩

theorem beginTransaction (h : R s1 s2) :
    (beginTransaction s1).Related R (fun _ _ => True) (beginTransaction s2) := by
  have hf := k.framer h
  cases h1 : s1.framer <;> rw [h1] at hf <;> simp only [Machine.beginTransaction, h1, ← hf, Result.Related]
  · exact ⟨trivial, k.setFramer (k.write h _ _ _ _ (by decide)) _⟩
  · exact k.raise h _

theorem endTransaction (h : R s1 s2) : (endTransaction s1).Related R (fun _ _ => True) (endTransaction s2) := by
  have hf := k.framer h
  cases h1 : s1.framer <;> rw [h1] at hf <;> simp only [Machine.endTransaction, h1, ← hf, Result.Related]
  · exact k.raise h _
  · exact ⟨trivial, k.setFramer (k.write h _ _ _ _ (by decide)) _⟩

theorem transmitBytes (bytes : List Byte) {s1 s2 : State} (h : R s1 s2) :
    (transmitBytes bytes s1).Related R (fun _ _ => True) (transmitBytes bytes s2) := by
  induction bytes generalizing s1 s2 with
  | nil => exact ⟨trivial, h⟩
  | cons b rest ih => exact (k.transmitByte h b).andThen fun _ _ _ _ _ h' => ih h'

theorem receiveBytes (count : Nat) {s1 s2 : State} (h : R s1 s2) :
    (receiveBytes count s1).Related R (List.Forall₂ V) (receiveBytes count s2) := by
  induction count generalizing s1 s2 with
  | zero => exact ⟨.nil, h⟩
  | succ n ih =>
    exact (k.receiveByte h).andThen fun _ _ _ _ hb h' => (ih h').andThen fun _ _ _ _ hq h'' => ⟨.cons hb hq, h''⟩

theorem sendFrame (h : R s1 s2) (f : FrameName) (addr : Address) (payload : List Byte) :
    (sendFrame f addr payload s1).Related R (List.Forall₂ V) (sendFrame f addr payload s2) :=
  (k.beginTransaction h).andThen fun _ _ _ _ _ h1 =>
    (k.transmitBytes _ h1).andThen fun _ _ _ _ _ h2 =>
      (k.receiveBytes _ h2).andThen fun _ _ _ _ hq h3 =>
        (k.endTransaction h3).andThen fun _ _ _ _ _ h4 => ⟨hq, h4⟩

/-- A frame whose response nothing keeps. -/
theorem sendDrop (h : R s1 s2) (f : FrameName) (addr : Address) (payload : List Byte) :
    ((Machine.sendFrame f addr payload s1).andThen fun _ t => .done () t).Related R (fun _ _ => True)
      ((Machine.sendFrame f addr payload s2).andThen fun _ t => .done () t) :=
  (k.sendFrame h f addr payload).andThen fun _ _ _ _ _ h' => ⟨trivial, h'⟩

/-- A frame whose response goes to the response buffer. -/
theorem sendStore (h : R s1 s2) (f : FrameName) (n : Nat) :
    ((Machine.sendFrame f 0 [] s1).andThen fun q t => .done () (storeResponse n q t)).Related R (fun _ _ => True)
      ((Machine.sendFrame f 0 [] s2).andThen fun q t => .done () (storeResponse n q t)) :=
  (k.sendFrame h f 0 []).andThen fun _ _ _ _ hq h' => ⟨trivial, k.response h' n _ _ hq⟩

/-- A status frame whose bit 0 is kept. -/
theorem sendBusy (h : R s1 s2) :
    ((Machine.sendFrame .readStatus 0 [] s1).andThen fun q t => .done () (storeBusy (q.headD 0x00#8) t)).Related R
      (fun _ _ => True)
      ((Machine.sendFrame .readStatus 0 [] s2).andThen fun q t => .done () (storeBusy (q.headD 0x00#8) t)) :=
  (k.sendFrame h .readStatus 0 []).andThen fun _ _ _ _ hq h' => ⟨trivial, k.busy h' _ _ (headD_related k.zero hq)⟩

theorem readStatus (h : R s1 s2) : (readStatus s1).Related R V (readStatus s2) :=
  (k.sendFrame h .readStatus 0 []).andThen fun _ _ _ _ hq h' => ⟨headD_related k.zero hq, h'⟩

theorem isBusy (h : R s1 s2) : (isBusy s1).Related R (fun _ _ => True) (isBusy s2) :=
  (k.readStatus h).andThen fun _ _ _ _ hb h' => ⟨trivial, k.busy h' _ _ hb⟩

theorem identify (h : R s1 s2) : (identify s1).Related R (fun _ _ => True) (identify s2) :=
  (k.sendFrame h .identA 0 []).andThen fun _ _ _ _ ha h1 => k.sendStore (k.response h1 0 _ _ ha) .identB 2

theorem enableThen (h : R s1 s2) (f : FrameName) (payload : List Byte) :
    (enableThen f payload s1).Related R (fun _ _ => True) (enableThen f payload s2) :=
  (k.sendDrop h .writeEnable 0 []).andThen fun _ _ t1 t2 _ h' => by rw [k.addr h']; exact k.sendDrop h' f _ payload

theorem initWith (m : mayMode) (h : R s1 s2) (d : Delays) :
    (initWith d s1).Related R (fun _ _ => True) (initWith d s2) :=
  ((k.sendFrame (k.delay (k.selectMode m (k.write h _ _ _ _ (by decide)) _) _) .exitExt 0 []).andThen
    fun _ _ _ _ _ h1 => k.sendDrop (k.delay h1 d.midMs) .wake 0 []).andThen
      fun _ _ _ _ _ h2 => ⟨trivial, k.success (k.delay h2 d.postMs)⟩

theorem whenIdle (h : R s1 s2) {t1 t2 : State} (ht : R t1 t2) :
    Outcome.Related R (whenIdle s1 t1) (whenIdle s2 t2) := by
  have hs := k.seq h
  cases h1 : s1.seq <;> rw [h1] at hs <;> simp only [Machine.whenIdle, h1, ← hs, Outcome.Related]
  exact ht

theorem hostCommand (h : R s1 s2) (op : HostOp) (len : Length) (addr : Address) (body : State → Result Unit)
    (hb : ∀ t1 t2, R t1 t2 → (body t1).Related R (fun _ _ => True) (body t2)) :
    Outcome.Related R (hostCommand op len addr body s1) (hostCommand op len addr body s2) := by
  have ha : admissionFault op len s1 = admissionFault op len s2 := by
    simp only [admissionFault, operandFault, k.mode h, k.pbuf h]
  have hl : R (loadOperands op len addr s1) (loadOperands op len addr s2) := by
    cases op <;> first
      | exact h
      | exact k.loadAddr h addr
      | exact k.loadLen (k.loadAddr h addr) len
  refine k.whenIdle h ?_
  rw [ha]
  cases admissionFault op len s2 with
  | none => exact (hb _ _ hl).state
  | some c => exact k.raise h c

/-- Every instruction keeps the relation. -/
theorem exec (h : R s1 s2) (i : Instr)
    (hm : mayMode ∨ ((∀ l a, i ≠ .init l a) ∧ ∀ l a, i ≠ .teardown l a)) :
    Outcome.Related R (exec i s1) (exec i s2) := by
  cases i with
  | init l a =>
    exact k.hostCommand h .init l a initCommand fun _ _ h' =>
      k.initWith (hm.elim id fun n => absurd rfl (n.1 l a)) h' Config.delays
  | teardown l a =>
    exact k.hostCommand h .teardown l a teardown fun _ _ h' =>
      ⟨trivial, k.selectMode (hm.elim id fun n => absurd rfl (n.2 l a)) h' _⟩
  | isBusy l a => exact k.hostCommand h _ _ _ _ fun _ _ h' => k.isBusy h'
  | identify l a => exact k.hostCommand h _ _ _ _ fun _ _ h' => k.identify h'
  | readUniqueId l a => exact k.hostCommand h _ _ _ _ fun _ _ h' => k.sendStore h' .readUid 0
  | beginErase4K l a => exact k.hostCommand h _ _ _ _ fun _ _ h' => k.enableThen h' _ _
  | beginErase32K l a => exact k.hostCommand h _ _ _ _ fun _ _ h' => k.enableThen h' _ _
  | beginErase64K l a => exact k.hostCommand h _ _ _ _ fun _ _ h' => k.enableThen h' _ _
  | beginWrite l a =>
    refine k.hostCommand h _ _ _ _ fun t1 t2 h' => ?_
    have := k.enableThen h' .pageProgram (payloadBytes t1.len t1.pbuf)
    rwa [Machine.beginWrite, Machine.beginWrite, ← k.len h', ← k.pbuf h']
  | hold l a => exact k.hostCommand h _ _ _ _ fun _ _ h' => k.sendDrop h' .hold 0 []
  | unhold l a => exact k.hostCommand h _ _ _ _ fun _ _ h' => k.sendDrop h' .wake 0 []
  | reservedB l a => exact k.whenIdle h (k.raise h _)
  | reservedCF low l a => exact k.whenIdle h (k.raise h _)
  | identA => exact k.whenIdle h (k.sendStore h .identA 0).state
  | identB => exact k.whenIdle h (k.sendStore h .identB 2).state
  | readUid => exact k.whenIdle h (k.sendStore h .readUid 0).state
  | readStatus => exact k.whenIdle h (k.sendBusy h).state
  | writeEnable => exact k.whenIdle h (k.sendFrame h .writeEnable 0 []).state
  | erase4K a => exact k.whenIdle h (k.sendFrame h .erase4K a []).state
  | erase32K a => exact k.whenIdle h (k.sendFrame h .erase32K a []).state
  | erase64K a => exact k.whenIdle h (k.sendFrame h .erase64K a []).state
  | pageProgram a p => exact k.whenIdle h (k.sendFrame h .pageProgram a p).state
  | exitExt => exact k.whenIdle h (k.sendFrame h .exitExt 0 []).state
  | wake => exact k.whenIdle h (k.sendFrame h .wake 0 []).state
  | holdFrame => exact k.whenIdle h (k.sendFrame h .hold 0 []).state

end Kept

/-- A property of one state that each primitive operation keeps. -/
structure Preserved (P : State → Prop) (mayMode : Prop) : Prop where
  write : ∀ {s}, P s → ∀ c m cs e, ⟨c, m, cs, e⟩ ∈ Signals.used → P (writeSignals c m cs e s)
  setFramer : ∀ {s}, P s → ∀ f, P { s with framer := f }
  clearAcc : ∀ {s}, P s → P { s with acc := 0x00#8 }
  sample : ∀ {s}, P s → P (sampleBit s)
  selectMode : mayMode → ∀ {s}, P s → ∀ m, P (selectMode m s)
  delay : ∀ {s}, P s → ∀ ms, P (delayPoint ms s)
  loadAddr : ∀ {s}, P s → ∀ a, P (loadAddr a s)
  loadLen : ∀ {s}, P s → ∀ n, P (loadLen n s)
  response : ∀ {s}, P s → ∀ k q, P (storeResponse k q s)
  busy : ∀ {s}, P s → ∀ b, P (storeBusy b s)
  success : ∀ {s}, P s → P (storeSuccess s)
  raise : ∀ {s}, P s → ∀ c, P (raiseFault c s)

theorem Preserved.kept {P : State → Prop} {mayMode : Prop} (p : Preserved P mayMode) :
    Kept (fun s1 s2 => s1 = s2 ∧ P s1) Eq mayMode where
  seq h := by rw [h.1]
  mode h := by rw [h.1]
  framer h := by rw [h.1]
  pbuf h := by rw [h.1]
  addr h := by rw [h.1]
  len h := by rw [h.1]
  acc h := by rw [h.1]
  zero := rfl
  write h c m cs e hu := ⟨by rw [h.1], p.write h.2 c m cs e hu⟩
  setFramer h f := ⟨by rw [h.1], p.setFramer h.2 f⟩
  clearAcc h := ⟨by rw [h.1], p.clearAcc h.2⟩
  sample h := ⟨by rw [h.1], p.sample h.2⟩
  selectMode hm _ _ h m := ⟨by rw [h.1], p.selectMode hm h.2 m⟩
  delay h ms := ⟨by rw [h.1], p.delay h.2 ms⟩
  loadAddr h a := ⟨by rw [h.1], p.loadAddr h.2 a⟩
  loadLen h n := ⟨by rw [h.1], p.loadLen h.2 n⟩
  response h k q1 q2 hq := by
    rw [List.forall₂_eq_eq_eq] at hq
    exact ⟨by rw [h.1, hq], p.response h.2 k q1⟩
  busy h b1 b2 hb := ⟨by rw [h.1, hb], p.busy h.2 b1⟩
  success h := ⟨by rw [h.1], p.success h.2⟩
  raise h c := ⟨by rw [h.1], p.raise h.2 c⟩

/-- A property that each primitive operation keeps is kept by every instruction that answers a next state. -/
theorem Preserved.exec {P : State → Prop} {mayMode : Prop} (p : Preserved P mayMode) {i : Instr} {s t : State} (hs : P s)
    (hm : mayMode ∨ ((∀ l a, i ≠ .init l a) ∧ ∀ l a, i ≠ .teardown l a)) (h : exec i s = .next t) : P t := by
  have hr := p.kept.exec ⟨rfl, hs⟩ i hm
  rw [h] at hr
  exact hr.2

end Sys2Proof.Machine
end

