-- ==== Sys2Proof/Laws/Observe.lean ====
section
/-! SUPPORT. The observations of a list of events, piece by piece. -/

namespace Sys2Proof.Machine

theorem foldl_add (es : List Event) (n : Counts) :
    es.foldl Counts.add n =
      ⟨n.writes + (countEvents es).writes, n.reads + (countEvents es).reads,
        n.modeWrites + (countEvents es).modeWrites, n.delays + (countEvents es).delays⟩ := by
  induction es generalizing n with
  | nil => simp [countEvents]
  | cons e es ih =>
    have hcons : countEvents (e :: es) = es.foldl Counts.add (Counts.add ⟨0, 0, 0, 0⟩ e) := rfl
    rw [List.foldl_cons, ih, hcons, ih]
    cases e <;> simp [Counts.add] <;> omega

/-- Counts add up. -/
theorem countEvents_append (a b : List Event) :
    countEvents (a ++ b) =
      ⟨(countEvents a).writes + (countEvents b).writes, (countEvents a).reads + (countEvents b).reads,
        (countEvents a).modeWrites + (countEvents b).modeWrites, (countEvents a).delays + (countEvents b).delays⟩ := by
  rw [countEvents, List.foldl_append, foldl_add]
  rfl

theorem samples_append (a b : List Event) : samples (a ++ b) = samples a ++ samples b := by
  simp [samples]

theorem pulses_append (a b : List Event) : pulses (a ++ b) = pulses a ++ pulses b := by
  simp [pulses]

theorem lastWritten_append (v : Signals) (a b : List Event) :
    lastWritten v (a ++ b) = lastWritten (lastWritten v a) b := by
  simp [lastWritten]

/-- One frame's events are what it emits. -/
theorem emitted_afterFrame (s : State) (bytes : List Byte) (count : Nat) (bits : List Bool) :
    s.Emitted (s.afterFrame bytes count bits) (frameEvents bytes count bits) := rfl

theorem Emitted.trans {s t u : State} {a b : List Event} (h1 : s.Emitted t a) (h2 : t.Emitted u b) :
    s.Emitted u (a ++ b) := by
  rw [State.Emitted] at *
  simp [h2, h1]

/-- What was emitted is determined. -/
theorem Emitted.unique {s t : State} {a b : List Event} (h1 : s.Emitted t a) (h2 : s.Emitted t b) : a = b := by
  rw [State.Emitted] at h1 h2
  rw [h1] at h2
  simpa using h2

end Sys2Proof.Machine
end

