-- ==== Sys2Proof/Laws/PerInstr.lean ====
section
/-! SUPPORT. The family `TableRow`: the code of every instruction has the fixed bits of its row of spec/opcode_table.json. -/

namespace Sys2Proof.Laws

/-- What a row of the opcode table fixes: bits of the host word, or the first byte of the frame. -/
inductive RowPattern where
  | host (mask value : BitVec 44)
  | wire (opcode : Byte)
  deriving DecidableEq, Repr

/-- The match and mask of each row, copied from spec/opcode_table.json. -/
def TableRow.pattern (i : Instr) : RowPattern :=
  match i with
  | .init _ _ => .host 0xF0000000000#44 0x00000000000#44
  | .teardown _ _ => .host 0xF0000000000#44 0x10000000000#44
  | .isBusy _ _ => .host 0xF0000000000#44 0x20000000000#44
  | .identify _ _ => .host 0xF0000000000#44 0x30000000000#44
  | .readUniqueId _ _ => .host 0xF0000000000#44 0x40000000000#44
  | .beginErase4K _ _ => .host 0xF0000000000#44 0x50000000000#44
  | .beginErase32K _ _ => .host 0xF0000000000#44 0x60000000000#44
  | .beginErase64K _ _ => .host 0xF0000000000#44 0x70000000000#44
  | .beginWrite _ _ => .host 0xF0000000000#44 0x80000000000#44
  | .hold _ _ => .host 0xF0000000000#44 0x90000000000#44
  | .unhold _ _ => .host 0xF0000000000#44 0xA0000000000#44
  | .reservedB _ _ => .host 0xF0000000000#44 0xB0000000000#44
  | .reservedCF _ _ _ => .host 0xC0000000000#44 0xC0000000000#44
  | .identA => .wire 0x90#8
  | .identB => .wire 0x9F#8
  | .readUid => .wire 0x4B#8
  | .readStatus => .wire 0x05#8
  | .writeEnable => .wire 0x06#8
  | .erase4K _ => .wire 0x20#8
  | .erase32K _ => .wire 0x52#8
  | .erase64K _ => .wire 0xD8#8
  | .pageProgram _ _ => .wire 0x02#8
  | .exitExt => .wire 0xFF#8
  | .wake => .wire 0xAB#8
  | .holdFrame => .wire 0xB9#8

/-- A code has the bits a row fixes. -/
def RowPattern.meets (p : RowPattern) (c : Code) : Prop :=
  match p, c with
  | .host mask value, .host w => w &&& mask = value
  | .wire opcode, .frame bytes => bytes.head? = some opcode
  | .host _ _, .frame _ => False
  | .wire _, .host _ => False

/-- The code of the instruction has the fixed bits of its row. -/
def TableRow.Statement (i : Instr) : Prop := (TableRow.pattern i).meets (encode i)

/-- Masking a host word to its op field. -/
theorem hostWord_and_op (op m : BitVec 4) (len : Length) (addr : Address) :
    hostWord op len addr &&& hostWord m 0 0 = hostWord (op &&& m) 0 0 := by
  apply BitVec.eq_of_getLsbD_eq
  intro i hi
  rw [BitVec.getLsbD_and, getLsbD_hostWord, getLsbD_hostWord, getLsbD_hostWord]
  by_cases h1 : i < 24
  · simp [h1]
  · by_cases h2 : i < 40 <;> simp [h1, h2]

theorem TableRow.init (len : Length) (addr : Address) : TableRow.Statement (.init len addr) :=
  hostWord_and_op 0x0#4 0xF#4 len addr

theorem TableRow.teardown (len : Length) (addr : Address) : TableRow.Statement (.teardown len addr) :=
  hostWord_and_op 0x1#4 0xF#4 len addr

theorem TableRow.isBusy (len : Length) (addr : Address) : TableRow.Statement (.isBusy len addr) :=
  hostWord_and_op 0x2#4 0xF#4 len addr

theorem TableRow.identify (len : Length) (addr : Address) : TableRow.Statement (.identify len addr) :=
  hostWord_and_op 0x3#4 0xF#4 len addr

theorem TableRow.readUniqueId (len : Length) (addr : Address) : TableRow.Statement (.readUniqueId len addr) :=
  hostWord_and_op 0x4#4 0xF#4 len addr

theorem TableRow.beginErase4K (len : Length) (addr : Address) : TableRow.Statement (.beginErase4K len addr) :=
  hostWord_and_op 0x5#4 0xF#4 len addr

theorem TableRow.beginErase32K (len : Length) (addr : Address) : TableRow.Statement (.beginErase32K len addr) :=
  hostWord_and_op 0x6#4 0xF#4 len addr

theorem TableRow.beginErase64K (len : Length) (addr : Address) : TableRow.Statement (.beginErase64K len addr) :=
  hostWord_and_op 0x7#4 0xF#4 len addr

theorem TableRow.beginWrite (len : Length) (addr : Address) : TableRow.Statement (.beginWrite len addr) :=
  hostWord_and_op 0x8#4 0xF#4 len addr

theorem TableRow.hold (len : Length) (addr : Address) : TableRow.Statement (.hold len addr) :=
  hostWord_and_op 0x9#4 0xF#4 len addr

theorem TableRow.unhold (len : Length) (addr : Address) : TableRow.Statement (.unhold len addr) :=
  hostWord_and_op 0xA#4 0xF#4 len addr

theorem TableRow.reservedB (len : Length) (addr : Address) : TableRow.Statement (.reservedB len addr) :=
  hostWord_and_op 0xB#4 0xF#4 len addr

theorem TableRow.reservedCF (low : BitVec 2) (len : Length) (addr : Address) :
    TableRow.Statement (.reservedCF low len addr) := by
  have hop : (0b11#2 ++ low) &&& 0xC#4 = 0xC#4 := by revert low; decide
  have h := hostWord_and_op (0b11#2 ++ low) 0xC#4 len addr
  rw [hop] at h
  exact h

theorem TableRow.identA : TableRow.Statement .identA := rfl

theorem TableRow.identB : TableRow.Statement .identB := rfl

theorem TableRow.readUid : TableRow.Statement .readUid := rfl

theorem TableRow.readStatus : TableRow.Statement .readStatus := rfl

theorem TableRow.writeEnable : TableRow.Statement .writeEnable := rfl

theorem TableRow.erase4K (addr : Address) : TableRow.Statement (.erase4K addr) := rfl

theorem TableRow.erase32K (addr : Address) : TableRow.Statement (.erase32K addr) := rfl

theorem TableRow.erase64K (addr : Address) : TableRow.Statement (.erase64K addr) := rfl

theorem TableRow.pageProgram (addr : Address) (payload : List Byte) :
    TableRow.Statement (.pageProgram addr payload) := rfl

theorem TableRow.exitExt : TableRow.Statement .exitExt := rfl

theorem TableRow.wake : TableRow.Statement .wake := rfl

theorem TableRow.holdFrame : TableRow.Statement .holdFrame := rfl

end Sys2Proof.Laws
end

