-- ==== Sys2Proof/Laws/Step.lean ====
section
/-! SUPPORT. Everything a step, and an event of a command, can do, once. -/

namespace Sys2Proof.Machine

theorem next_inj {s t : State} (h : (Host.Outcome.next s : Host.Outcome State Fault Refusal) = .next t) : s = t := by
  injection h

/-- The ways an event step can answer a next state. -/
theorem eventStepWith_next (d : Delays) (s t : State) (h : eventStepWith d s = .next t) :
    (s.seq = .idle ∧ t = s) ∨
      ∃ op k m, s.seq = .running op k ∧ (eventsOf d op s)[k]? = some m ∧
        ((∃ s1, m.run s = .done () s1 ∧ t = advance op k (eventsOf d op s).length s1) ∨ m.run s = .raised t) := by
  unfold eventStepWith at h
  split at h
  · rename_i hs
    exact .inl ⟨hs, (next_inj h).symm⟩
  · rename_i op k hs
    split at h
    · cases h
    · rename_i m hm
      refine .inr ⟨op, k, m, hs, hm, ?_⟩
      split at h
      · rename_i s1 hr
        exact .inl ⟨s1, hr, (next_inj h).symm⟩
      · rename_i s1 hr
        rw [next_inj h] at hr
        exact .inr hr

/-- What accepting a payload changes: `PBUF` and nothing else. -/
theorem supplyPayload_eq (r : Request) (s : State) : supplyPayload r s = { s with pbuf := (supplyPayload r s).pbuf } := by
  unfold supplyPayload; split <;> rfl

theorem usesPayload_iff (r : Request) (i : Instr) (h : decode (.host r.word) = .ok i) :
    r.usesPayload = true ↔ ∃ len addr, i = .beginWrite len addr := by
  obtain rfl : decodeHost r.word = i := by simpa [decode] using h
  rw [decodeHost_beginWrite_iff, Request.usesPayload, beq_iff_eq]

/-- Before a `beginWrite`, `PBUF` holds what was supplied with it, whatever it held (10_state.md R18). -/
theorem supplyPayload_beginWrite (r : Request) (s : State) (len : Length) (addr : Address)
    (h : decode (.host r.word) = .ok (.beginWrite len addr)) : supplyPayload r s = { s with pbuf := r.entries } := by
  rw [supplyPayload, if_pos ((usesPayload_iff r _ h).2 ⟨len, addr, rfl⟩)]

/-- Before any other command `PBUF` stands as it was. -/
theorem supplyPayload_other (r : Request) (s : State) (i : Instr) (h : decode (.host r.word) = .ok i)
    (hi : ∀ len addr, i ≠ .beginWrite len addr) : supplyPayload r s = s := by
  rw [supplyPayload, if_neg fun hu => by obtain ⟨len, addr, e⟩ := (usesPayload_iff r i h).1 hu; exact hi len addr e]

theorem entries_length (r : Request) : r.entries.length ≤ Config.pageMax := List.length_take_le ..

/-- The ways a step that is no reset can answer a next state. -/
theorem step_next {s t : State} (hr : s.resetIn = false) (h : step s = .next t) :
    (∃ op k, s.seq = .running op k ∧ eventStep s = .next t) ∨
      (s.seq = .idle ∧ t = s ∧ s.frameSlot = none ∧ s.caller = []) ∨
      (s.seq = .idle ∧ ∃ bytes i, s.frameSlot = some bytes ∧ decode (.frame bytes) = .ok i ∧
        exec i { s with frameSlot := none } = .next t) ∨
      (s.seq = .idle ∧ s.frameSlot = none ∧ ∃ r rest i, s.caller = r :: rest ∧ decode (.host r.word) = .ok i ∧
        exec i (supplyPayload r { s with caller := rest }) = .next t) := by
  unfold step todo at h
  simp only [hr, Bool.false_eq_true, if_false] at h
  cases hs : s.seq with
  | running op k => simp only [hs] at h; exact .inl ⟨op, k, rfl, h⟩
  | idle =>
    simp only [hs] at h
    cases hf : s.frameSlot with
    | some bytes =>
      simp only [hf] at h
      cases hd : decode (.frame bytes) with
      | ok i => simp only [hd] at h; exact .inr (.inr (.inl ⟨rfl, bytes, i, rfl, hd, by rw [hr]; exact h⟩))
      | error why => simp [hd] at h
    | none =>
      simp only [hf] at h
      cases hc : s.caller with
      | nil => simp only [hc] at h; exact .inr (.inl ⟨rfl, (next_inj h).symm, rfl, rfl⟩)
      | cons r rest =>
        simp only [hc] at h
        cases hd : decode (.host r.word) with
        | ok i => simp only [hd] at h; exact .inr (.inr (.inr ⟨rfl, rfl, r, rest, i, rfl, hd, by rw [hr]; exact h⟩))
        | error why => simp [hd] at h

/-- What advancing the position leaves alone. -/
theorem advance_frame (op : HostOp) (k count : Nat) (s : State) :
    (advance op k count s).sig = s.sig ∧ (advance op k count s).mode = s.mode
      ∧ (advance op k count s).framer = s.framer ∧ (advance op k count s).pbuf = s.pbuf
      ∧ (advance op k count s).addr = s.addr ∧ (advance op k count s).len = s.len
      ∧ (advance op k count s).fault = s.fault ∧ (advance op k count s).fcause = s.fcause
      ∧ (advance op k count s).frameSlot = s.frameSlot ∧ (advance op k count s).trace = s.trace
      ∧ (advance op k count s).seq = if k + 1 < count then .running op (k + 1) else .idle := by
  unfold advance
  split
  · simp
  · cases op <;> simp [storeResult, storeSuccess, storeBusy]

end Sys2Proof.Machine
end

