-- ==== Sys2Proof/Tests/Slice0.lean ====
section
/-! SUPPORT. Tests. Expected values are those of spec/95_test_vectors.md (the vector is named) or of the tables of
spec/30_encoding.md. The last part shows, for each statement with hypotheses, that they can be met. -/

namespace Sys2Proof.Tests

open Sys2Proof Sys2Proof.Machine

/-! ### Helpers -/

/-- The ready state of spec/95_test_vectors.md section 1.1, with zeros where the spec leaves a value free. -/
def ready : State :=
  { State.reset with sig := Signals.rest, mode := .bitBang, rc := some 0, acc := 0, addr := 0, len := 0 }

/-- Ready, with the bytes the device answers. -/
def answering (bytes : List Byte) : State := { ready with misoIn := bytes.flatMap byteBits }

/-- Ready, in the middle of a transaction. -/
def opened : State := { ready with framer := .active, sig := ⟨false, false, false, false⟩ }

/-- After reset, with fixed values where the spec leaves a value free. -/
def fresh : State := { ready with mode := .unknown, rc := none }

/-- The next state has a property. -/
def nextIs (o : Host.Outcome State Fault Refusal) (p : State → Bool) : Bool :=
  match o with
  | .next t => p t
  | .fault _ => false
  | .refused _ => false

/-- The packed values of the signal writes, as the vectors write them. -/
def packedWrites (t : State) : List Nat :=
  t.events.filterMap fun e => match e with
    | .write v => some (Signals.packed v).toNat
    | .read _ => none
    | .selectMode _ => none
    | .delay _ => none

/-- Instruction `i` at `s` sends these transactions and no other event but reads. -/
def sends (i : Instr) (s : State) (transactions : List (List Byte)) : Bool :=
  nextIs (exec i s) fun t => wireDecode t.events == transactions && t.sig == Signals.rest && t.framer == .idle

/-- The reset reads as the four free values allow. -/
def rbufIs (t : State) (bytes : List (Option Byte)) : Bool := (List.range 8).map t.hostReadRbuf == bytes

/-! ### WellFormed -/

theorem test_payload_257_refused : (Instr.pageProgram 0 (List.replicate 257 0)).wellFormed = false := by
  rw [Instr.wellFormed, payloadFits, List.length_replicate]; decide

theorem test_payload_256_accepted : (Instr.pageProgram 0 (List.replicate 256 0)).wellFormed = true := by
  rw [Instr.wellFormed, payloadFits, List.length_replicate]; decide

theorem test_decode_payload_257_refused :
    decode (.frame (0x02#8 :: 0 :: 0 :: 0 :: List.replicate 257 0)) = .error .payloadTooLong := by
  have hop : frameOfOpcode 0x02#8 = some .pageProgram := by decide
  have h : payloadFits (List.replicate 257 (0 : Byte)) = false := by
    rw [payloadFits, List.length_replicate]; decide
  generalize List.replicate 257 (0 : Byte) = payload at h
  simp [decode, decodeFrame, hop, decodeRest, decodePageProgram, h]

/-! ### Decoding: words written out from 30_encoding.md R61, R63, R64 -/

theorem test_decode_init :
    decode (.host 0b0000_0000000000000000_000000000000000000000000#44) = .ok (.init 0 0) := by decide

theorem test_decode_teardown :
    decode (.host 0b0001_0000000000000000_000000000000000000000000#44) = .ok (.teardown 0 0) := by decide

theorem test_decode_isBusy :
    decode (.host 0b0010_0000000000000000_000000000000000000000000#44) = .ok (.isBusy 0 0) := by decide

theorem test_decode_identify :
    decode (.host 0b0011_0000000000000000_000000000000000000000000#44) = .ok (.identify 0 0) := by decide

theorem test_decode_readUniqueId :
    decode (.host 0b0100_0000000000000000_000000000000000000000000#44) = .ok (.readUniqueId 0 0) := by decide

theorem test_decode_beginErase4K :
    decode (.host 0b0101_0000000000000000_000000010010001101000101#44) = .ok (.beginErase4K 0 0x012345#24) := by decide

theorem test_decode_beginErase32K :
    decode (.host 0b0110_0000000000000001_100000000000000000000000#44) = .ok (.beginErase32K 1 0x800000#24) := by decide

theorem test_decode_beginErase64K :
    decode (.host 0b0111_1000000000000000_111111111111111111111111#44) = .ok (.beginErase64K 0x8000#16 0xFFFFFF#24) := by
  decide

theorem test_decode_beginWrite :
    decode (.host 0b1000_0000000000000011_000000000000000100000000#44) = .ok (.beginWrite 3 0x000100#24) := by decide

theorem test_decode_hold :
    decode (.host 0b1001_0000000000000000_000000000000000000000000#44) = .ok (.hold 0 0) := by decide

theorem test_decode_unhold :
    decode (.host 0b1010_0000000000000000_000000000000000000000001#44) = .ok (.unhold 0 1) := by decide

theorem test_decode_reservedB :
    decode (.host 0b1011_0000000000000000_000000000000000000000000#44) = .ok (.reservedB 0 0) := by decide

theorem test_decode_reservedCF :
    decode (.host 0b1100_0000000000000000_000000000000000000000000#44) = .ok (.reservedCF 0b00#2 0 0)
    ∧ decode (.host 0b1101_0000000000000000_000000000000000000000000#44) = .ok (.reservedCF 0b01#2 0 0)
    ∧ decode (.host 0b1110_0000000000000000_000000000000000000000000#44) = .ok (.reservedCF 0b10#2 0 0)
    ∧ decode (.host 0b1111_1111111111111111_111111111111111111111111#44)
      = .ok (.reservedCF 0b11#2 0xFFFF#16 0xFFFFFF#24) := by decide

theorem test_decode_identA : decode (.frame [0b10010000#8, 0, 0, 0]) = .ok .identA := by decide

theorem test_decode_identB : decode (.frame [0b10011111#8]) = .ok .identB := by decide

theorem test_decode_readUid : decode (.frame [0b01001011#8, 0, 0, 0, 0]) = .ok .readUid := by decide

theorem test_decode_readStatus : decode (.frame [0b00000101#8]) = .ok .readStatus := by decide

theorem test_decode_writeEnable : decode (.frame [0b00000110#8]) = .ok .writeEnable := by decide

theorem test_decode_erase4K :
    decode (.frame [0b00100000#8, 0x01#8, 0x23#8, 0x45#8]) = .ok (.erase4K 0x012345#24) := by decide

theorem test_decode_erase32K :
    decode (.frame [0b01010010#8, 0x80#8, 0x00#8, 0x01#8]) = .ok (.erase32K 0x800001#24) := by decide

theorem test_decode_erase64K :
    decode (.frame [0b11011000#8, 0xFF#8, 0x00#8, 0x00#8]) = .ok (.erase64K 0xFF0000#24) := by decide

theorem test_decode_pageProgram :
    decode (.frame [0b00000010#8, 0x00#8, 0x01#8, 0x00#8, 0xDE#8, 0xAD#8, 0xBE#8])
      = .ok (.pageProgram 0x000100#24 [0xDE#8, 0xAD#8, 0xBE#8]) := by decide

theorem test_decode_exitExt :
    decode (.frame [0xFF#8, 0xFF#8, 0xFF#8, 0xFF#8, 0xFF#8, 0xFF#8, 0xFF#8, 0xFF#8]) = .ok .exitExt := by decide

theorem test_decode_wake : decode (.frame [0b10101011#8]) = .ok .wake := by decide

theorem test_decode_holdFrame : decode (.frame [0b10111001#8]) = .ok .holdFrame := by decide

/-- No byte, no opcode of the table, a dummy byte that is not 0, an address byte too few, EXIT_EXT a byte short. -/
theorem test_decode_rejects :
    decode (.frame []) = .error .emptyFrame
    ∧ decode (.frame [0x03#8]) = .error (.unknownOpcode 0x03#8)
    ∧ decode (.frame [0x90#8, 0, 0, 1]) = .error (.malformedFrame .identA)
    ∧ decode (.frame [0x20#8, 0, 0]) = .error (.malformedFrame .erase4K)
    ∧ decode (.frame (List.replicate 7 0xFF#8)) = .error (.malformedFrame .exitExt) := by decide

/-- The words of spec/opcode_table.json: byte 0 of a frame is its opcode, a host word has 44 bits in 6 bytes. -/
theorem test_table_words :
    decodeTableWord 48 0x80003000100 = some (.beginWrite 3 0x000100#24)
    ∧ decodeTableWord 48 0x100000000000 = none
    ∧ decodeTableWord 8 0x9F = some .identB
    ∧ decodeTableWord 32 0x45230120 = some (.erase4K 0x012345#24)
    ∧ decodeTableWord 40 0x4B = some .readUid
    ∧ decodeTableWord 32 0x02 = some (.pageProgram 0 [])
    ∧ decodeTableWord 8 0x03 = none := by decide

/-! ### The Bit Transport -/

/-- V41.3. -/
theorem test_transmit_A5 :
    packedWrites (transmitByte 0xA5#8 opened).state =
      [1, 3, 1, 0, 2, 0, 1, 3, 1, 0, 2, 0, 0, 2, 0, 1, 3, 1, 0, 2, 0, 1, 3, 1] := by decide

/-- V41.12, V41.13. -/
theorem test_receive_5A :
    (receiveByte { opened with acc := 0xFF#8, misoIn := [false, true, false, true, true, false, true, false] }).state.acc
      = 0x5A#8 := by decide

/-- V42.4, V41.16. -/
theorem test_framing_faults :
    (beginTransaction opened).state.fcause = .nest ∧ (transmitByte 0 ready).state.fcause = .frame := by decide

/-! ### Host commands -/

/-- V44.1, with the delays at 0: the writes of `init` after reset, and what it leaves. -/
theorem test_init :
    (packedWrites (initWith ⟨0, 0, 0⟩ fresh).state).take 5 = [4, 0, 1, 3, 1]
    ∧ countEvents (initWith ⟨0, 0, 0⟩ fresh).state.events = ⟨221, 0, 1, 0⟩
    ∧ (initWith ⟨0, 0, 0⟩ fresh).state.mode = .bitBang ∧ (initWith ⟨0, 0, 0⟩ fresh).state.rc = some 0
    ∧ (initWith ⟨0, 0, 0⟩ fresh).state.sig = Signals.rest := by decide +kernel

/-- V44.2. -/
theorem test_init_delays :
    (initWith ⟨0, 1, 20⟩ fresh).state.events.filter (fun e => e == .delay 1 || e == .delay 20) = [.delay 1, .delay 20]
    ∧ (initWith ⟨0, 1, 20⟩ fresh).state.events.getLast? = some (.delay 20) := by decide

/-- V44.5. -/
theorem test_teardown :
    nextIs (exec (.teardown 0 0) ready) (fun t =>
      t.events == [.selectMode .memoryMapped] && t.mode == .memoryMapped && t.sig == ready.sig) = true := by decide

/-- L1.5, status 0x03: the trace `0 zzzzzozo 8 [0][0][0][0][0][0][1][1] 4`, and busy. -/
theorem test_isBusy_trace :
    nextIs (exec (.isBusy 0 0) (answering [0x03#8])) (fun t =>
      packedWrites t == [0, 0, 2, 0, 0, 2, 0, 0, 2, 0, 0, 2, 0, 0, 2, 0, 1, 3, 1, 0, 2, 0, 1, 3, 1, 8, 10, 8, 10, 8, 10,
          8, 10, 8, 10, 8, 10, 8, 10, 8, 10, 8, 4]
        && samples t.events == [false, false, false, false, false, false, true, true]
        && t.busy == some true) = true := by decide

/-- L1.5, V43.4: status 0xFE is not busy. -/
theorem test_isBusy_FE : nextIs (exec (.isBusy 0 0) (answering [0xFE#8])) (fun t => t.busy == some false) = true := by
  decide

/-- L1.3. -/
theorem test_identify :
    nextIs (exec (.identify 0 0) (answering [0xEF#8, 0x40#8, 0xEF#8, 0x18#8, 0x18#8])) (fun t =>
      rbufIs t [some 0xEF#8, some 0x40#8, some 0xEF#8, some 0x18#8, some 0x18#8, none, none, none]) = true := by decide

theorem test_identify_wire :
    sends (.identify 0 0) (answering [0xC2#8, 0x17#8, 0xEF#8, 0x40#8, 0x18#8]) [[0x90#8, 0, 0, 0], [0x9F#8]] = true := by
  decide

/-- V43.9. -/
theorem test_readUniqueId :
    nextIs (exec (.readUniqueId 0 0) (answering [0xD1#8, 0x62#8, 0x34#8, 0x56#8, 0x78#8, 0x9A#8, 0xBC#8, 0xDE#8])) (fun t =>
      rbufIs t [some 0xD1#8, some 0x62#8, some 0x34#8, some 0x56#8, some 0x78#8, some 0x9A#8, some 0xBC#8, some 0xDE#8]
        && wireDecode t.events == [[0x4B#8, 0, 0, 0, 0]]) = true := by decide +kernel

/-- L1.2. -/
theorem test_beginErase4K :
    sends (.beginErase4K 0 0x012345#24) ready [[0x06#8], [0x20#8, 0x01#8, 0x23#8, 0x45#8]] = true := by decide

/-- V43.13: an address wider than 24 bits. -/
theorem test_beginErase4K_wide :
    decodeHost (Call.beginErase4K 0x1ABCDEF0).request.word = .beginErase4K 0 0xBCDEF0#24 := by decide

/-- V43.11. -/
theorem test_beginErase32K :
    sends (.beginErase32K 0 0) ready [[0x06#8], [0x52#8, 0, 0, 0]] = true := by decide

/-- V43.12. -/
theorem test_beginErase64K :
    sends (.beginErase64K 0 0xFFFFFF#24) ready [[0x06#8], [0xD8#8, 0xFF#8, 0xFF#8, 0xFF#8]] = true := by decide

/-- V43.15. -/
theorem test_beginWrite :
    sends (.beginWrite 3 0x000100#24) { ready with pbuf := [0xDE#8, 0xAD#8, 0xBE#8] }
      [[0x06#8], [0x02#8, 0x00#8, 0x01#8, 0x00#8, 0xDE#8, 0xAD#8, 0xBE#8]] = true := by decide +kernel

/-- V60.6: two bytes supplied of three. -/
theorem test_beginWrite_operand :
    nextIs (exec (.beginWrite 3 0x000100#24) { ready with pbuf := [0x11#8, 0x22#8], len := 7 }) (fun t =>
      t.fcause == .operand 2 && t.fault && t.trace == [] && t.addr == 0 && t.len == 7) = true := by decide

/-- V43.23. -/
theorem test_hold :
    nextIs (exec (.hold 0 0) ready) (fun t => packedWrites t ==
      [0, 1, 3, 1, 0, 2, 0, 1, 3, 1, 1, 3, 1, 1, 3, 1, 0, 2, 0, 0, 2, 0, 1, 3, 1, 4]) = true := by decide

/-- V43.24. -/
theorem test_unhold :
    nextIs (exec (.unhold 0 0) ready) (fun t => packedWrites t ==
      [0, 1, 3, 1, 0, 2, 0, 1, 3, 1, 0, 2, 0, 1, 3, 1, 0, 2, 0, 1, 3, 1, 1, 3, 1, 4]) = true := by decide

/-- V60.3. -/
theorem test_reservedB :
    nextIs (exec (.reservedB 0 0) ready) (fun t => t == { ready with fault := true, fcause := .reservedOp 0xB#4 }) = true := by
  decide

/-- V60.4, V60.5, V60.10: recorded value, priority over the mode check, first cause kept. -/
theorem test_reservedCF :
    nextIs (exec (.reservedCF 0b11#2 0xFFFF#16 0xFFFFFF#24) ready) (fun t => t.fcause == .reservedOp 0xF#4)
    ∧ nextIs (exec (.reservedCF 0b00#2 0 0) fresh) (fun t => t.fcause == .reservedOp 0xC#4)
    ∧ nextIs (exec (.reservedCF 0b00#2 0 0) { fresh with fault := true, fcause := .mode 2 })
      (fun t => t.fcause == .mode 2) := by decide

/-- V60.1, V60.2, V60.9: outside Bit-Bang mode. -/
theorem test_mode_faults :
    nextIs (exec (.isBusy 0 0) fresh) (fun t => t == { fresh with fault := true, fcause := .mode 0x2#4 })
    ∧ nextIs (exec (.identify 0 0) { ready with mode := .memoryMapped }) (fun t => t.fcause == .mode 0x3#4)
    ∧ nextIs (exec (.beginWrite 3 0) fresh) (fun t => t.fcause == .mode 0x8#4) := by decide

/-! ### Wire frames: V42.6 to V42.8, 30_encoding.md R63 -/

theorem test_identA :
    nextIs (exec .identA (answering [0xEF#8, 0x40#8])) (fun t =>
      rbufIs t [some 0xEF#8, some 0x40#8, none, none, none, none, none, none]) = true := by decide

theorem test_identB :
    nextIs (exec .identB (answering [0xEF#8, 0x40#8, 0x18#8])) (fun t =>
      rbufIs t [none, none, some 0xEF#8, some 0x40#8, some 0x18#8, none, none, none]) = true := by decide

theorem test_readUid :
    nextIs (exec .readUid (answering [1, 2, 3, 4, 5, 6, 7, 8])) (fun t =>
      rbufIs t [some 1, some 2, some 3, some 4, some 5, some 6, some 7, some 8]) = true := by decide +kernel

theorem test_readStatus :
    nextIs (exec .readStatus (answering [0x03#8])) (fun t => t.busy == some true && t.acc == 0x03#8) = true := by decide

/-- V42.6. -/
theorem test_writeEnable :
    nextIs (exec .writeEnable ready) (fun t => packedWrites t ==
      [0, 0, 2, 0, 0, 2, 0, 0, 2, 0, 0, 2, 0, 0, 2, 0, 1, 3, 1, 1, 3, 1, 0, 2, 0, 4]) = true := by decide

theorem test_erase4K : sends (.erase4K 0x012345#24) ready [[0x20#8, 0x01#8, 0x23#8, 0x45#8]] = true := by decide

theorem test_erase32K : sends (.erase32K 0x800000#24) ready [[0x52#8, 0x80#8, 0, 0]] = true := by decide

theorem test_erase64K : sends (.erase64K 0x000001#24) ready [[0xD8#8, 0, 0, 0x01#8]] = true := by decide

theorem test_pageProgram :
    sends (.pageProgram 0x000100#24 [0xDE#8]) ready [[0x02#8, 0, 0x01#8, 0, 0xDE#8]] = true := by
  decide

theorem test_exitExt : sends .exitExt ready [List.replicate 8 0xFF#8] = true := by decide +kernel

theorem test_wake : sends .wake ready [[0xAB#8]] = true := by decide

theorem test_holdFrame : sends .holdFrame ready [[0xB9#8]] = true := by decide

/-! ### The step -/

/-- The first step after reset runs a placed word: V44.1's start, V60.1, and a frame. -/
theorem test_fetch :
    nextIs (step (State.reset.withFetchWord 48 0x00000000000)) (fun t => t.rc == some 0 && t.mode == .bitBang)
    ∧ nextIs (step (State.reset.withFetchWord 48 0x20000000000)) (fun t => t.fcause == .mode 0x2#4)
    ∧ nextIs (step (State.reset.withFetchWord 8 0x06)) (fun t => wireDecode t.events == [[0x06#8]]) := by decide

/-- R18, R163: an earlier command's three bytes in `PBUF` do not count for a `beginWrite` presented without a payload, nor
behind a shorter one. -/
theorem test_payload_not_stale :
    let stale : State := { ready with pbuf := [0xDE#8, 0xAD#8, 0xBE#8] }
    nextIs (step { stale with caller := [⟨0x80003000100#44, none⟩] }) (fun t =>
      t.fcause == .operand 0 && t.fault && t.trace == [])
    ∧ nextIs (step { stale with caller := [⟨0x80003000100#44, some [0x11#8, 0x22#8]⟩] }) (fun t =>
      t.fcause == .operand 2 && t.trace == []) := by decide

/-- V43.15, presented with its payload over other contents of `PBUF`; another command leaves `PBUF` alone. -/
theorem test_payload_supplied :
    nextIs (step { ready with pbuf := [0x11#8], caller := [(Call.beginWrite 0x000100 [0xDE#8, 0xAD#8] 2).request] }) (fun t =>
      wireDecode t.events == [[0x06#8], [0x02#8, 0x00#8, 0x01#8, 0x00#8, 0xDE#8, 0xAD#8]] && t.fault == false)
    ∧ nextIs (step { ready with pbuf := [0x11#8], caller := [Call.hold.request] }) (fun t => t.pbuf == [0x11#8]) := by
  decide +kernel

/-- With nothing presented the block waits. -/
theorem test_wait : nextIs (step ready) (fun t => t == ready) = true := by decide

/-- P5's first event, in the event view: `W(0,0,0,0)`, and the position moves on. -/
theorem test_event :
    nextIs (step { ready with seq := .running .hold 0 }) (fun t =>
      t.events == [evW false false false false] && t.seq == .running .hold 1 && t.framer == .active) = true := by decide

/-! ### Witnesses: for each statement with hypotheses, a state and operands that meet them -/

/-- Ready, with a full payload buffer. -/
def full : State := { ready with pbuf := List.replicate 256 0x5A#8 }

/-- A `hold` before its first event. -/
def starting : State := { ready with seq := .running .hold 0 }

/-- A `hold` before its last event. -/
def ending : State :=
  { ready with seq := .running .hold 25, framer := .active, sig := ⟨false, true, false, false⟩ }

theorem idle_of (s : State) (h1 : s.seq = .idle) (h2 : s.framer = .idle) : s.Idle := ⟨h1, h2⟩

theorem ready_is_ready : ready.Ready := { seq := rfl, framer := rfl, mode := rfl }

theorem full_is_ready : full.Ready := { seq := rfl, framer := rfl, mode := rfl }

theorem fresh_is_idle : fresh.Idle := ⟨rfl, rfl⟩

theorem full_supplied : full.Supplied 300#16 := by
  rw [State.Supplied, full, List.length_replicate]; decide

theorem ready_not_supplied : ¬ ready.Supplied 1 := by
  rw [State.Supplied]; decide

theorem emitted_events (s t : State) (h : s.trace = []) : s.Emitted t t.events := by
  simp [State.Emitted, State.events, h]

theorem ready_inv : ready.Inv :=
  ⟨by decide, by decide, fun _ => rfl, fun _ _ => rfl, fun _ _ h => by cases h⟩

theorem starting_inv : starting.Inv := by
  refine ⟨by decide, by decide, nofun, nofun, fun op k h => ?_⟩
  injection h with h1 h2
  subst h1 h2
  exact ⟨by decide, rfl, Signals.rest, .bitBang, rfl, rfl, fun _ => rfl, fun _ => rfl⟩

theorem ending_inv : ending.Inv := by
  refine ⟨by decide, by decide, nofun, nofun, fun op k h => ?_⟩
  injection h with h1 h2
  subst h1 h2
  exact ⟨by decide, by decide, Signals.rest, .bitBang, by decide, by decide, fun _ => rfl, fun _ => rfl⟩

theorem test_witness_InstructionRoundTrip : ∃ i : Instr, i.wellFormed = true ∧ i ≠ .identA :=
  ⟨.pageProgram 0 (List.replicate 256 0), test_payload_256_accepted, by decide⟩

theorem test_witness_CodeRoundTrip :
    (∃ i, decode (.host 0xB0000000001#44) = .ok i) ∧ ∃ i, decode (.frame [0x9F#8]) = .ok i :=
  ⟨⟨_, rfl⟩, _, rfl⟩

theorem test_witness_AddressBytesBigEndian :
    (List.replicate 256 (0 : Byte)).length ≤ 256 ∧ ready.Ready ∧ full.Ready ∧ full.Supplied 300#16 :=
  ⟨by rw [List.length_replicate], ready_is_ready, full_is_ready, full_supplied⟩

theorem test_witness_BareFrameAddressBytes :
    (List.replicate 256 (0 : Byte)).length ≤ 256 ∧ fresh.Idle
    ∧ (∃ t, exec (.erase4K 0xFFFFFF#24) fresh = .next t ∧ fresh.Emitted t t.events)
    ∧ (∃ t, exec (.erase32K 1) fresh = .next t ∧ fresh.Emitted t t.events)
    ∧ (∃ t, exec (.erase64K 0) fresh = .next t ∧ fresh.Emitted t t.events)
    ∧ ∃ t, exec (.pageProgram 0 [0xDE#8]) fresh = .next t ∧ fresh.Emitted t t.events :=
  ⟨by rw [List.length_replicate], fresh_is_idle, ⟨_, rfl, emitted_events _ _ rfl⟩, ⟨_, rfl, emitted_events _ _ rfl⟩,
    ⟨_, rfl, emitted_events _ _ rfl⟩, _, rfl, emitted_events _ _ rfl⟩

theorem test_witness_SignalWriteSetsAllFour : ready.mode = .bitBang := rfl

theorem test_witness_DataInReadIsADraw : (answering [0x80#8]).misoIn = true :: List.replicate 7 false ∧ ready.misoIn = [] := by
  decide

theorem test_witness_PinsFollowSignals : ready.mode = .bitBang ∧ fresh.mode ≠ .bitBang := by decide

theorem test_witness_MostSignificantBitFirst : opened.framer = .active := rfl

theorem test_witness_TransmitByteWrites : opened.framer = .active ∧ ready.framer = .idle := ⟨rfl, rfl⟩

theorem test_witness_ReceiveByteSamples : opened.framer = .active ∧ ready.framer = .idle := ⟨rfl, rfl⟩

theorem test_witness_EchoRoundTrip : opened.framer = .active := rfl

theorem test_witness_AccumulatorForgets : (byteBits 0xA5#8).length = 8 := rfl

theorem test_witness_FramerTransitions : ready.framer = .idle ∧ opened.framer = .active := ⟨rfl, rfl⟩

theorem test_witness_FrameOnTheWire : ready.framer = .idle := rfl

theorem test_witness_InitEffect : fresh.Idle := fresh_is_idle

theorem test_witness_TeardownEffect : fresh.seq = .idle := rfl

theorem test_witness_IsBusyEffect : (fresh.seq = .idle ∧ fresh.mode ≠ .bitBang) ∧ ready.Ready :=
  ⟨⟨rfl, by decide⟩, ready_is_ready⟩

theorem test_witness_IdentifyEffect : (fresh.seq = .idle ∧ fresh.mode ≠ .bitBang) ∧ ready.Ready := test_witness_IsBusyEffect

theorem test_witness_ReadUniqueIdEffect : (fresh.seq = .idle ∧ fresh.mode ≠ .bitBang) ∧ ready.Ready := test_witness_IsBusyEffect

theorem test_witness_EraseEffect : (fresh.seq = .idle ∧ fresh.mode ≠ .bitBang) ∧ ready.Ready := test_witness_IsBusyEffect

theorem test_witness_HoldUnholdEffect : (fresh.seq = .idle ∧ fresh.mode ≠ .bitBang) ∧ ready.Ready := test_witness_IsBusyEffect

/-- One payload byte missing of one; all supplied, at LEN = 300 and 256 bytes; none asked for. -/
theorem test_witness_BeginWriteEffect :
    (fresh.seq = .idle ∧ fresh.mode ≠ .bitBang)
    ∧ (ready.seq = .idle ∧ ready.mode = .bitBang ∧ ready.pbuf.length < min (1#16).toNat 256)
    ∧ (full.Ready ∧ min (300#16).toNat 256 ≤ full.pbuf.length)
    ∧ min (0#16).toNat 256 ≤ ready.pbuf.length :=
  ⟨⟨rfl, by decide⟩, ⟨rfl, rfl, by decide⟩, ⟨full_is_ready, full_supplied⟩, by decide⟩

theorem full_passes : operandFault .beginWrite 300#16 full = none := by
  rw [operandFault, missingPayload_supplied _ _ full_supplied, Option.map_none]

/-- A command of a ready block with no operand to miss answers a next state, which has emitted its events. -/
theorem runs_ready (op : HostOp) (len : Length) (addr : Address) (body : State → Result Unit) (s : State) (hr : s.Ready)
    (ht : s.trace = []) (ho : operandFault op len s = none) :
    ∃ t, hostCommand op len addr body s = .next t ∧ s.Emitted t t.events :=
  ⟨_, hostCommand_runs op len addr body s hr.seq ((admissionFault_bitBang op len s hr.mode).trans ho),
    emitted_events _ _ ht⟩

theorem test_witness_WireTransactions :
    (∃ t, exec (.init 0 0) ready = .next t ∧ ready.Emitted t t.events)
    ∧ (∃ t, exec (.teardown 0 0) ready = .next t ∧ ready.Emitted t t.events)
    ∧ (∃ t, exec (.isBusy 0 0) ready = .next t ∧ ready.Emitted t t.events)
    ∧ (∃ t, exec (.identify 0 0) ready = .next t ∧ ready.Emitted t t.events)
    ∧ (∃ t, exec (.readUniqueId 0 0) ready = .next t ∧ ready.Emitted t t.events)
    ∧ (∃ t, exec (.beginErase4K 0 1) ready = .next t ∧ ready.Emitted t t.events)
    ∧ (∃ t, exec (.beginErase32K 0 1) ready = .next t ∧ ready.Emitted t t.events)
    ∧ (∃ t, exec (.beginErase64K 0 1) ready = .next t ∧ ready.Emitted t t.events)
    ∧ (∃ t, exec (.beginWrite 300#16 1) full = .next t ∧ full.Emitted t t.events)
    ∧ (∃ t, exec (.hold 0 0) ready = .next t ∧ ready.Emitted t t.events)
    ∧ (∃ t, exec (.unhold 0 0) ready = .next t ∧ ready.Emitted t t.events) :=
  have h (op : HostOp) (addr : Address) (body : State → Result Unit) (ho : operandFault op 0 ready = none) :=
    runs_ready op 0 addr body ready ready_is_ready rfl ho
  ⟨h .init 0 initCommand rfl, h .teardown 0 teardown rfl, h .isBusy 0 isBusy rfl, h .identify 0 identify rfl,
    h .readUniqueId 0 readUniqueId rfl, h .beginErase4K 1 beginErase4K rfl, h .beginErase32K 1 beginErase32K rfl,
    h .beginErase64K 1 beginErase64K rfl,
    runs_ready .beginWrite 300#16 1 beginWrite full full_is_ready rfl full_passes,
    h .hold 0 hold rfl, h .unhold 0 unhold rfl⟩

theorem test_witness_ModeCommandCounts :
    fresh.Idle ∧ (∃ t, exec (.init 0 0) fresh = .next t ∧ fresh.Emitted t t.events)
    ∧ ∃ t, exec (.teardown 0 0) fresh = .next t ∧ fresh.Emitted t t.events :=
  ⟨fresh_is_idle, ⟨_, rfl, emitted_events _ _ rfl⟩, _, rfl, emitted_events _ _ rfl⟩

theorem test_witness_SendingFramesComplete : fresh.Idle := fresh_is_idle

theorem test_witness_ReceivingFramesComplete : fresh.Idle := fresh_is_idle

/-- In the middle of a command a transaction is in progress, in a state that meets the invariant. -/
theorem test_witness_NestedTransactionFaults : ending.framer = .active ∧ ending.Inv := ⟨rfl, ending_inv⟩

theorem test_witness_ReservedOpFaults :
    0xB ≤ (opField 0xB0000000000#44).toNat ∧ 0xB ≤ (opField 0xFFFFFFFFFFF#44).toNat ∧ fresh.seq = .idle := by decide

theorem test_witness_ModeFaults :
    (HostOp.hold ≠ .init ∧ HostOp.hold ≠ .teardown ∧ fresh.seq = .idle ∧ fresh.mode ≠ .bitBang)
    ∧ (∃ t, exec (.teardown 0 0) { fresh with fcause := .mode 2 } = .next t ∧ t.fcause = .mode 2)
    ∧ (∃ t, exec (.init 0 0) { fresh with fcause := .mode 2 } = .next t ∧ t.fcause = .mode 2)
    ∧ ready.mode = .bitBang ∧ ∃ t, exec (HostOp.hold.instr 0 0) ready = .next t :=
  ⟨by decide, ⟨_, rfl, rfl⟩, ⟨_, rfl, rfl⟩, rfl, _, rfl⟩

theorem test_witness_OperandFaults :
    ready.seq = .idle ∧ ready.mode = .bitBang ∧ ∃ i, i < min (300#16).toNat 256 ∧ ready.pbufEntry i = none :=
  ⟨rfl, rfl, 255, by decide, rfl⟩

theorem test_witness_FaultEntry : ready.Idle ∧ ready.fault = false ∧ { fresh with fault := true }.Idle :=
  ⟨ready_is_ready.toIdle, rfl, rfl, rfl⟩

theorem test_witness_FaultPriority : fresh.seq = .idle ∧ fresh.mode ≠ .bitBang ∧ ¬ fresh.Supplied 1 :=
  ⟨rfl, by decide, ready_not_supplied⟩

theorem test_witness_FaultIsSticky :
    ∃ t, step (placeCode (.host 0xB0000000000#44) { fresh with fault := true, fcause := .mode 2 }) = .next t := ⟨_, rfl⟩

theorem test_witness_FaultedMachineStillRuns :
    ready.fault = false ∧ ∃ t, exec (.hold 0 0) ready = .next t ∧ t.fault = false := ⟨rfl, _, rfl, rfl⟩

theorem test_witness_CommandInProgressStops : ending.seq = .running .hold 25 := rfl

theorem test_witness_ModeLifeCycle :
    fresh.Idle ∧ fresh.mode ≠ .bitBang ∧ ready.Idle ∧ ready.mode = .bitBang ∧ full.Supplied 300#16
    ∧ (∃ t, exec (.init 0 0) fresh = .next t) ∧ (∃ t, exec (.teardown 0 0) fresh = .next t)
    ∧ ∃ t, exec (.wake) fresh = .next t :=
  ⟨fresh_is_idle, by decide, ready_is_ready.toIdle, rfl, full_supplied, ⟨_, rfl⟩, ⟨_, rfl⟩, _, rfl⟩

theorem test_witness_ReceivedLevelsDoNotSteer :
    ∃ t1 t2, exec (.isBusy 0 0) { ready with misoIn := byteBits 0x01#8 } = .next t1
      ∧ exec (.isBusy 0 0) { ready with misoIn := byteBits 0xFE#8 } = .next t2 := ⟨_, _, rfl, rfl⟩

theorem test_witness_OnlySevenSignalValues : ∃ t, exec (.isBusy 0 0) ready = .next t ∧ ready.Emitted t t.events :=
  ⟨_, rfl, emitted_events _ _ rfl⟩

theorem test_witness_LineDiscipline :
    ready.Inv ∧ ∃ t, exec (.identify 0 0) ready = .next t ∧ ready.Emitted t t.events :=
  ⟨ready_inv, _, rfl, emitted_events _ _ rfl⟩

/-- In the middle of a command, before its first and its last event, and between commands. -/
theorem test_witness_InvariantKept :
    (starting.Inv ∧ ∃ t, step starting = .next t) ∧ (ending.Inv ∧ ∃ t, step ending = .next t)
    ∧ ready.Inv ∧ ∃ t, step (placeCode (.host 0x90000000000#44) ready) = .next t :=
  ⟨⟨starting_inv, _, rfl⟩, ⟨ending_inv, _, rfl⟩, ready_inv, _, rfl⟩

theorem test_witness_InvariantKeptByPresent : ready.Inv ∧ ∃ t, present .hold 0 0 ready = .next t := ⟨ready_inv, _, rfl⟩

theorem test_witness_FramerMatchesChipSelect :
    (ending.Inv ∧ ending.mode = .bitBang ∧ ending.framer = .active) ∧ ready.Inv ∧ ready.mode = .bitBang :=
  ⟨⟨ending_inv, rfl, rfl⟩, ready_inv, rfl⟩

theorem test_witness_FramingFaultsUnreachable :
    ending.Inv ∧ ending.frameSlot = none ∧ ∃ t, step ending = .next t := ⟨ending_inv, rfl, _, rfl⟩

theorem test_witness_EventViewAgrees :
    fresh.seq = .idle ∧ (eventsOf Config.delays .hold (loadOperands .hold 0 0 fresh)).length ≤ 26 := ⟨rfl, by decide⟩

theorem test_witness_OneEventPerStep :
    (starting.Inv ∧ starting.seq = .running .hold 0 ∧ 0 + 1 < (eventsOf Config.delays .hold starting).length)
    ∧ ending.Inv ∧ ending.seq = .running .hold 25 ∧ 25 + 1 = (eventsOf Config.delays .hold ending).length :=
  ⟨⟨starting_inv, rfl, by decide⟩, ending_inv, rfl, by decide⟩

theorem test_witness_EventListLengths : payloadCount 300#16 ≤ full.pbuf.length := full_supplied

theorem test_witness_StepRunsDecoded :
    { ready with resetIn := true }.resetIn = true
    ∧ (ready.resetIn = false ∧ ending.seq = .running .hold 25 ∧ ready.seq = .idle)
    ∧ decode (.frame [0xAB#8]) = .ok .wake ∧ decode (.frame []) = .error .emptyFrame
    ∧ decode (.host (Request.word ⟨0x90000000000#44, none⟩)) = .ok (.hold 0 0)
    ∧ decode (.host (Request.word ⟨0x80003000100#44, some []⟩)) = .ok (.beginWrite 3 0x000100#24)
    ∧ ready.frameSlot = none ∧ ready.caller = [] :=
  ⟨rfl, ⟨rfl, rfl, rfl⟩, by decide, by decide, by decide, by decide, rfl, rfl⟩

theorem test_witness_PlacedCodeRuns :
    (∃ i, decode (.host 0xC0000000000#44) = .ok i) ∧ (∃ i, decode (.frame [0x05#8]) = .ok i)
    ∧ decode (.host 0x80003000100#44) = .ok (.beginWrite 3 0x000100#24) ∧ full.pbuf.length ≤ 256 :=
  ⟨⟨_, rfl⟩, ⟨_, rfl⟩, by decide, by rw [full, List.length_replicate]⟩

theorem test_witness_ResetClearsControl : { ending with resetIn := true }.resetIn = true := rfl

theorem test_witness_InitMustComeFirst : HostOp.unhold ≠ .init ∧ HostOp.unhold ≠ .teardown := by decide

theorem test_witness_WideAddressTruncated :
    ready.Ready ∧ ready.resetIn = false ∧ ready.frameSlot = none
    ∧ (∃ s : State, s.Ready ∧ s.caller = [(Call.beginErase4K (2 ^ 24 + 1)).request])
    ∧ (∃ s : State, s.Ready ∧ s.caller = [(Call.beginErase32K (2 ^ 32)).request])
    ∧ (∃ s : State, s.Ready ∧ s.caller = [(Call.beginErase64K (2 ^ 25 - 1)).request])
    ∧ (∃ s : State, s.Ready ∧ s.caller = [(Call.beginWrite (2 ^ 24) (List.replicate 257 0) 300#16).request])
    ∧ min (300#16).toNat 256 ≤ (List.replicate 257 (0 : Byte)).length :=
  ⟨ready_is_ready, rfl, rfl,
    ⟨{ ready with caller := [(Call.beginErase4K (2 ^ 24 + 1)).request] }, { seq := rfl, framer := rfl, mode := rfl }, rfl⟩,
    ⟨{ ready with caller := [(Call.beginErase32K (2 ^ 32)).request] }, { seq := rfl, framer := rfl, mode := rfl }, rfl⟩,
    ⟨{ ready with caller := [(Call.beginErase64K (2 ^ 25 - 1)).request] }, { seq := rfl, framer := rfl, mode := rfl }, rfl⟩,
    ⟨{ ready with caller := [(Call.beginWrite (2 ^ 24) (List.replicate 257 0) 300#16).request] },
      { seq := rfl, framer := rfl, mode := rfl }, rfl⟩,
    by rw [List.length_replicate]; decide⟩

/-- No payload at all over a full `PBUF`; a payload of two bytes of three; a longer payload than is sent. -/
theorem test_witness_PayloadTravelsWithCommand :
    (full.seq = .idle ∧ full.mode = .bitBang ∧ full.resetIn = false ∧ full.frameSlot = none ∧ full.framer = .idle)
    ∧ (∃ s : State, s.Ready ∧ s.caller = [⟨hostWord 0x8#4 1 0, none⟩])
    ∧ (((none : Option (List Byte)).getD []).take 256).length < min (1#16).toNat 256
    ∧ ((some [0x11#8, 0x22#8]).getD []).take 256 = [0x11#8, 0x22#8] ∧ [0x11#8, 0x22#8].length < min (3#16).toNat 256
    ∧ min (1#16).toNat 256 ≤ ([0x11#8, 0x22#8].take 256).length :=
  ⟨⟨rfl, rfl, rfl, rfl, rfl⟩,
    ⟨{ full with caller := [⟨hostWord 0x8#4 1 0, none⟩] }, { seq := rfl, framer := rfl, mode := rfl }, rfl⟩,
    by decide, rfl, by decide, by decide⟩

end Sys2Proof.Tests
end

section
/-! The bit order of 20_memory.md R42: the accumulator's bits, and what a device reads at the pulses of the byte events. -/

namespace Sys2Proof.Machine

/-! ### The bits of the accumulator (41_bit_transport.md R104) -/

@[simp] theorem byteBit_shiftIn_zero (acc : Byte) (b : Bool) : byteBit (shiftIn acc b) 0 = b := by
  simp [byteBit, shiftIn]

@[simp] theorem byteBit_shiftIn_succ (acc : Byte) (b : Bool) (i : Nat) (hi : i + 1 < 8) :
    byteBit (shiftIn acc b) (i + 1) = byteBit acc i := by
  simp [byteBit, shiftIn, hi, BitVec.getLsbD_eq_getElem (show i < 8 by omega)]

/-- The bits of a byte form a shift register: a sample enters at bit 0 and bit 7 leaves. -/
theorem byteBits_shiftIn (acc : Byte) (b : Bool) : byteBits (shiftIn acc b) = (byteBits acc).tail ++ [b] := by
  simp [byteBits]

theorem byteBits_foldl_shiftIn (bits : List Bool) (acc : Byte) :
    byteBits (bits.foldl shiftIn acc) = (byteBits acc ++ bits).drop bits.length := by
  induction bits generalizing acc with
  | nil => simp
  | cons b rest ih =>
    have hshift : byteBits (shiftIn acc b) ++ rest = (byteBits acc ++ b :: rest).tail := by
      rw [byteBits_shiftIn, byteBits]
      simp
    rw [List.foldl_cons, ih, hshift, List.drop_tail, List.length_cons]

/-- Eight samples push out whatever the accumulator held: the first ends in bit 7, the last in bit 0. -/
theorem byteBits_byteOfBits (bits : List Bool) (h : bits.length = 8) : byteBits (byteOfBits bits) = bits := by
  rw [byteOfBits, byteBits_foldl_shiftIn, h]
  exact List.drop_left' rfl

theorem byteBits_eq_map_range (v : Byte) : byteBits v = (List.range 8).map fun k => byteBit v (7 - k) := rfl

theorem receiveEvents_byteBits (v : Byte) :
    receiveEvents (byteBits v) =
      evW false false false true :: (List.range 8).flatMap fun k => sampleEvents (byteBit v (7 - k)) := by
  rw [receiveEvents, byteBits_eq_map_range, List.flatMap_map]

/-! ### Pulses and samples of the byte events -/

theorem pulses_flatMap_bitEvents (bits : List Bool) : pulses (bits.flatMap bitEvents) = bits := by
  induction bits with
  | nil => rfl
  | cons b rest ih =>
    have hbit : pulses (bitEvents b) = [b] := rfl
    rw [List.flatMap_cons, pulses_append, hbit, ih, List.singleton_append]

theorem pulses_flatMap_sampleEvents (bits : List Bool) :
    pulses (bits.flatMap sampleEvents) = List.replicate bits.length false := by
  induction bits with
  | nil => rfl
  | cons b rest ih =>
    have hbit : pulses (sampleEvents b) = [false] := rfl
    rw [List.flatMap_cons, pulses_append, hbit, ih, List.length_cons, List.replicate_succ, List.singleton_append]

theorem samples_flatMap_sampleEvents (bits : List Bool) : samples (bits.flatMap sampleEvents) = bits := by
  induction bits with
  | nil => rfl
  | cons b rest ih =>
    have hbit : samples (sampleEvents b) = [b] := rfl
    rw [List.flatMap_cons, samples_append, hbit, ih, List.singleton_append]

theorem pulses_byteEvents (v : Byte) : pulses (byteEvents v) = byteBits v := pulses_flatMap_bitEvents _

/-- The set-up write keeps CLOCK low, so it is no pulse. -/
theorem pulses_receiveEvents (bits : List Bool) :
    pulses (receiveEvents bits) = List.replicate bits.length false :=
  pulses_flatMap_sampleEvents bits

theorem samples_receiveEvents (bits : List Bool) : samples (receiveEvents bits) = bits :=
  samples_flatMap_sampleEvents bits

/-- Settles O13: a sent byte pulses its bits 7 down to 0, and a received byte is the one whose bits 7 down to 0 are the
samples, since eight shifts put the first sample into bit 7. -/
theorem mostSignificantBitFirst : Obligations.MostSignificantBitFirst := by
  intro s hs
  constructor
  · intro v
    exact ⟨_, byteEvents v, transmitByte_active v s hs, rfl, pulses_byteEvents v⟩
  · obtain ⟨bits, ⟨hlen, -⟩, hrun⟩ := receiveByte_active s hs
    have hbits : byteBits (byteOfBits bits) = bits := byteBits_byteOfBits bits hlen
    refine ⟨byteOfBits bits, _, receiveEvents bits, hrun, rfl, ?_, ?_, ?_⟩
    · exact (congrArg receiveEvents hbits).symm.trans (receiveEvents_byteBits _)
    · rw [pulses_receiveEvents, List.length_replicate, hlen]
    · rw [samples_receiveEvents, ← byteBits_eq_map_range, hbits]

end Sys2Proof.Machine
end

section
/-! The address bytes of 30_encoding.md R66 and 20_memory.md R43: in the encodings of the four frames that name an address,
and as the wire decoder reads them in the four commands that send those frames. -/

namespace Sys2Proof

/-! ### The address bytes in the frames -/

/-- The shifts of R66 as divisions. -/
theorem addressBytes_eq_ofNat (addr : Address) :
    addressBytes addr =
      [BitVec.ofNat 8 (addr.toNat / 65536), BitVec.ofNat 8 (addr.toNat / 256), BitVec.ofNat 8 addr.toNat] := by
  have hshift (k : Nat) : (addr >>> k).setWidth 8 = BitVec.ofNat 8 (addr.toNat / 2 ^ k) := by
    rw [← BitVec.ofNat_toNat, BitVec.toNat_ushiftRight, Nat.shiftRight_eq_div_pow]
  have hlow : addr.setWidth 8 = BitVec.ofNat 8 addr.toNat := (BitVec.ofNat_toNat 8 addr).symm
  rw [addressBytes, hshift, hshift, hlow]
  rfl

theorem frameBytes_erase4K (addr : Address) : frameBytes .erase4K addr [] = 0x20#8 :: addressBytes addr := rfl

theorem frameBytes_erase32K (addr : Address) : frameBytes .erase32K addr [] = 0x52#8 :: addressBytes addr := rfl

theorem frameBytes_erase64K (addr : Address) : frameBytes .erase64K addr [] = 0xD8#8 :: addressBytes addr := rfl

theorem frameBytes_pageProgram (addr : Address) (payload : List Byte) (h : payload.length ≤ 256) :
    frameBytes .pageProgram addr payload = 0x02#8 :: addressBytes addr ++ payload := by
  have htake : payload.take 256 = payload := List.take_of_length_le h
  exact congrArg (0x02#8 :: addressBytes addr ++ ·) htake

end Sys2Proof

namespace Sys2Proof.Machine

theorem payloadBytes_length_le (len : Length) (pbuf : List Byte) : (payloadBytes len pbuf).length ≤ 256 :=
  (List.length_take_le ..).trans (Nat.min_le_right ..)

/-! ### Bits back to bytes -/

theorem byteBits_injective : Function.Injective byteBits := by
  intro v w h
  simp only [byteBits, byteBit, List.cons.injEq] at h
  obtain ⟨h7, h6, h5, h4, h3, h2, h1, h0, -⟩ := h
  apply BitVec.eq_of_getLsbD_eq
  intro i hi
  interval_cases i <;> assumption

/-- Eight shifts of a byte's own bits give the byte back (41_bit_transport.md R104 (d)). -/
@[simp] theorem byteOfBits_byteBits (v : Byte) : byteOfBits (byteBits v) = v :=
  byteBits_injective (byteBits_byteOfBits (byteBits v) rfl)

theorem bytesOfBits_flatMap_byteBits (bytes : List Byte) : bytesOfBits (bytes.flatMap byteBits) = bytes := by
  induction bytes with
  | nil => rfl
  | cons v rest ih =>
    calc bytesOfBits (byteBits v ++ rest.flatMap byteBits)
        = byteOfBits (byteBits v) :: bytesOfBits (rest.flatMap byteBits) := rfl
      _ = v :: rest := by rw [byteOfBits_byteBits, ih]

/-! ### The wire decoder on the events of a frame (95_test_vectors.md section 1.1) -/

/-- A transmitted bit raises CLOCK once with MISO_ENABLE low, so it adds its level to the transaction. -/
theorem see_bitEvents (b : Bool) (bits : List Bool) (done : List (List Byte)) :
    (bitEvents b).foldl Wire.see ⟨false, true, bits, done⟩ = ⟨false, true, bits ++ [b], done⟩ := rfl

theorem see_flatMap_bitEvents (bs bits : List Bool) (done : List (List Byte)) :
    (bs.flatMap bitEvents).foldl Wire.see ⟨false, true, bits, done⟩ = ⟨false, true, bits ++ bs, done⟩ := by
  induction bs generalizing bits with
  | nil => simp
  | cons b rest ih =>
    rw [List.flatMap_cons, List.foldl_append, see_bitEvents, ih, List.append_assoc, List.singleton_append]

/-- The CLOCK pulse of a sample has MISO_ENABLE high, so the wire decoder does not read it as sent. -/
theorem see_sampleEvents (b : Bool) (bits : List Bool) (done : List (List Byte)) :
    (sampleEvents b).foldl Wire.see ⟨false, true, bits, done⟩ = ⟨false, true, bits, done⟩ := rfl

theorem see_receiveEvents (bs bits : List Bool) (done : List (List Byte)) :
    (receiveEvents bs).foldl Wire.see ⟨false, true, bits, done⟩ = ⟨false, true, bits, done⟩ := by
  have hsetup : Wire.see ⟨false, true, bits, done⟩ (evW false false false true) = ⟨false, true, bits, done⟩ := rfl
  rw [receiveEvents, List.foldl_cons, hsetup, List.foldl_flatMap]
  exact List.foldl_fixed' (fun b => see_sampleEvents b bits done) bs

theorem see_flatMap_byteEvents (bytes : List Byte) (done : List (List Byte)) :
    (bytes.flatMap byteEvents).foldl Wire.see ⟨false, true, [], done⟩ = ⟨false, true, bytes.flatMap byteBits, done⟩ := by
  have hbits : bytes.flatMap byteEvents = (bytes.flatMap byteBits).flatMap bitEvents := List.flatMap_assoc.symm
  rw [hbits, see_flatMap_bitEvents, List.nil_append]

theorem see_flatMap_receiveEvents (samplesOf : Nat → List Bool) (count : Nat) (bits : List Bool)
    (done : List (List Byte)) :
    ((List.range count).flatMap fun k => receiveEvents (samplesOf k)).foldl Wire.see ⟨false, true, bits, done⟩ =
      ⟨false, true, bits, done⟩ := by
  rw [List.foldl_flatMap]
  exact List.foldl_fixed' (fun k => see_receiveEvents (samplesOf k) bits done) (List.range count)

/-- One frame is one transaction more, of the bytes it sends, whatever it receives. -/
theorem see_frameEvents (bytes : List Byte) (count : Nat) (bits : List Bool) (done : List (List Byte)) :
    (frameEvents bytes count bits).foldl Wire.see ⟨false, false, [], done⟩ = ⟨false, false, [], done ++ [bytes]⟩ := by
  have hopen : Wire.see ⟨false, false, [], done⟩ (evW false false false false) = ⟨false, true, [], done⟩ := rfl
  have hclose (sent : List Bool) : Wire.see ⟨false, true, sent, done⟩ (evW false false true false) =
      ⟨false, false, [], done ++ [bytesOfBits sent]⟩ := rfl
  simp only [frameEvents, List.foldl_append, List.foldl_cons, List.foldl_nil]
  rw [hopen, see_flatMap_byteEvents, see_flatMap_receiveEvents, hclose, bytesOfBits_flatMap_byteBits]

/-- Two frames are two transactions on the wire. -/
theorem wireDecode_frameEvents_append (first second : List Byte) (m n : Nat) (bits bits' : List Bool) :
    wireDecode (frameEvents first m bits ++ frameEvents second n bits') = [first, second] := by
  rw [wireDecode, Wire.rest, List.foldl_append, see_frameEvents, see_frameEvents]
  rfl

/-! ### The commands that send an address -/

@[simp] theorem loadOperands_framer (op : HostOp) (len : Length) (addr : Address) (s : State) :
    (loadOperands op len addr s).framer = s.framer := by
  cases op <;> rfl

@[simp] theorem loadOperands_trace (op : HostOp) (len : Length) (addr : Address) (s : State) :
    (loadOperands op len addr s).trace = s.trace := by
  cases op <;> rfl

section EnableThen

/-! A command that passes its checks in a ready state and whose procedure is `enableThen` (R127 to R130). -/

variable {op : HostOp} {len : Length} {addr : Address} {body : State → Result Unit} {s : State} {f : FrameName}
  {payload : List Byte} (hr : s.Ready) (hop : operandFault op len s = none)
  (hbody : body (loadOperands op len addr s) = enableThen f payload (loadOperands op len addr s))
  (haddr : (loadOperands op len addr s).addr = addr) (hq : (descriptor f).received = 0)

include hr hop hbody haddr hq

/-- It sends the write enable, and then its frame with the address of the command. -/
theorem hostCommand_enableThen :
    hostCommand op len addr body s =
      .next (((loadOperands op len addr s).afterSend [0x06#8]).afterSend (frameBytes f addr payload)) := by
  have hadmit : admissionFault op len s = none := (admissionFault_bitBang op len s hr.mode).trans hop
  have hframer : (loadOperands op len addr s).framer = .idle := (loadOperands_framer op len addr s).trans hr.framer
  rw [hostCommand_runs op len addr body s hr.seq hadmit, hbody, enableThen_idle f payload _ hframer hq, haddr, state_done]
  rfl

/-- The wire decoder reads the two frames as two transactions (R135). -/
theorem hostCommand_enableThen_onWire :
    ∃ t es, hostCommand op len addr body s = .next t ∧ s.Emitted t es
      ∧ wireDecode es = [[0x06#8], frameBytes f addr payload] := by
  have henable : s.Emitted ((loadOperands op len addr s).afterSend [0x06#8]) (frameEvents [0x06#8] 0 []) := by
    rw [State.Emitted, afterFrame_trace, loadOperands_trace]
  exact ⟨_, _, hostCommand_enableThen hr hop hbody haddr hq, Emitted.trans henable (emitted_afterFrame ..),
    wireDecode_frameEvents_append ..⟩

end EnableThen

/-- Settles O5: `addressBytes` is the big-endian list, the four frames are their opcode and it (the encodings), and the
four commands send the write enable and then that frame, which the wire decoder reads back. -/
theorem addressBytesBigEndian : Obligations.AddressBytesBigEndian := by
  intro addr payload hpayload a
  have ha : addressBytes addr = a := addressBytes_eq_ofNat addr
  refine ⟨?_, ?_, ?_, ?_, fun len s hr => ⟨?_, ?_, ?_, fun hsup => ?_⟩⟩ <;> rw [← ha]
  · exact congrArg Code.frame (frameBytes_erase4K addr)
  · exact congrArg Code.frame (frameBytes_erase32K addr)
  · exact congrArg Code.frame (frameBytes_erase64K addr)
  · exact congrArg Code.frame (frameBytes_pageProgram addr payload hpayload)
  · rw [← frameBytes_erase4K]
    exact hostCommand_enableThen_onWire hr rfl rfl rfl rfl
  · rw [← frameBytes_erase32K]
    exact hostCommand_enableThen_onWire hr rfl rfl rfl rfl
  · rw [← frameBytes_erase64K]
    exact hostCommand_enableThen_onWire hr rfl rfl rfl rfl
  · have hop : operandFault .beginWrite len s = none :=
      congrArg (Option.map FaultCause.operand) (missingPayload_supplied len s hsup)
    have hbytes : frameBytes .pageProgram addr (payloadBytes len s.pbuf) =
        0x02#8 :: addressBytes addr ++ s.pbuf.take (min len.toNat 256) :=
      frameBytes_pageProgram addr _ (payloadBytes_length_le len s.pbuf)
    rw [← hbytes]
    exact hostCommand_enableThen_onWire hr hop rfl rfl rfl

end Sys2Proof.Machine
end

section
/-! The signal write of 40_signal_driver.md R90: what it does to the state, to the pins and on the register interface. -/

namespace Sys2Proof.Machine

/-- The whole state after a signal write: the old `SIG` is replaced without being read, and one event is emitted. -/
theorem writeSignals_eq (c m cs e : Bool) (s : State) :
    writeSignals c m cs e s =
      { s with sig := ⟨c, m, cs, e⟩, trace := .write ⟨c, m, cs, e⟩ :: s.trace } := rfl

/-- In Bit-Bang mode the pins carry what `SIG` holds (10_state.md R14). -/
theorem pins_of_bitBang {s : State} (h : s.mode = .bitBang) :
    s.pins = ⟨some s.sig.clock, some s.sig.mosi, some s.sig.chipSelect, some s.sig.misoEnable,
      if s.sig.misoEnable then none else some s.sig.mosi⟩ := by
  rw [State.pins, h]

/-- A signal write keeps the mode, so in Bit-Bang mode the pins show the four bits at once. -/
theorem pins_writeSignals (c m cs e : Bool) {s : State} (h : s.mode = .bitBang) :
    (writeSignals c m cs e s).pins = ⟨some c, some m, some cs, some e, if e then none else some m⟩ := by
  have hmode : (writeSignals c m cs e s).mode = .bitBang := (writeSignals_mode c m cs e s).trans h
  rw [pins_of_bitBang hmode, writeSignals_sig]

/-- On the register interface the event of a signal write is one write of the packed value (10_state.md R11). -/
@[simp] theorem access_write (map : RegisterMap) (v : Signals) :
    Event.access map (.write v) = some (.memWrite map.sigAddr (Signals.packed v)) := rfl

/-- Settles O8, by the next state of the write, the pins of a Bit-Bang state and the access of a write event. -/
theorem signalWriteSetsAllFour : Obligations.SignalWriteSetsAllFour := by
  intro c m cs e s
  exact ⟨writeSignals_eq c m cs e s, pins_writeSignals c m cs e, fun map => access_write map ⟨c, m, cs, e⟩⟩

end Sys2Proof.Machine
end

section
/-! What the rules of the nine host commands share (spec/43_command_protocol.md R124 to R132): the counts of a frame's
events, the levels drawn by two frames in a row, the response buffer after a frame, the address bytes of a host address,
and how a command passes or fails its checks. -/

namespace Sys2Proof.Machine

/-! ### The counts of a frame (70_reset_and_hazards.md R215) -/

/-- Pieces that each hold the same counts add up to a multiple of them. -/
theorem countEvents_flatMap {α : Type} {f : α → List Event} {w r : Nat} (l : List α)
    (h : ∀ x ∈ l, countEvents (f x) = ⟨w, r, 0, 0⟩) :
    countEvents (l.flatMap f) = ⟨w * l.length, r * l.length, 0, 0⟩ := by
  induction l with
  | nil => rfl
  | cons x rest ih =>
    obtain ⟨hx, hrest⟩ := List.forall_mem_cons.mp h
    simp only [List.flatMap_cons, countEvents_append, hx, ih hrest, List.length_cons, Nat.mul_succ, Nat.add_comm]

theorem countEvents_byteEvents (v : Byte) : countEvents (byteEvents v) = ⟨24, 0, 0, 0⟩ :=
  countEvents_flatMap (f := bitEvents) (w := 3) (r := 0) (byteBits v) fun _ _ => rfl

/-- A received byte is the set-up write, and two writes and a read for each of its eight samples. -/
theorem countEvents_receiveEvents (bits : List Bool) (h : bits.length = 8) :
    countEvents (receiveEvents bits) = ⟨17, 8, 0, 0⟩ := by
  have hsamples : countEvents (bits.flatMap sampleEvents) = ⟨2 * bits.length, 1 * bits.length, 0, 0⟩ :=
    countEvents_flatMap bits fun _ _ => rfl
  rw [receiveEvents, ← List.singleton_append, countEvents_append, hsamples, h]
  rfl

theorem sampleByte_length {bits : List Bool} {count k : Nat} (h : bits.length = 8 * count) (hk : k < count) :
    (sampleByte bits k).length = 8 := by
  rw [sampleByte, List.length_take, List.length_drop, h]
  omega

theorem countEvents_frameEvents (bytes : List Byte) (count : Nat) (bits : List Bool) (h : bits.length = 8 * count) :
    countEvents (frameEvents bytes count bits) = ⟨2 + 24 * bytes.length + 17 * count, 8 * count, 0, 0⟩ := by
  have hsent : countEvents (bytes.flatMap byteEvents) = ⟨24 * bytes.length, 0 * bytes.length, 0, 0⟩ :=
    countEvents_flatMap bytes fun v _ => countEvents_byteEvents v
  have hreceived : countEvents ((List.range count).flatMap fun k => receiveEvents (sampleByte bits k)) =
      ⟨17 * (List.range count).length, 8 * (List.range count).length, 0, 0⟩ :=
    countEvents_flatMap (List.range count) fun k hk =>
      countEvents_receiveEvents _ (sampleByte_length h (List.mem_range.mp hk))
  have hopen : countEvents [evW false false false false] = ⟨1, 0, 0, 0⟩ := rfl
  have hclose : countEvents [evW false false true false] = ⟨1, 0, 0, 0⟩ := rfl
  simp only [frameEvents, countEvents_append, hopen, hsent, hreceived, hclose, List.length_range, Counts.mk.injEq,
    and_true]
  omega

/-- The write-enable frame and one more that receives nothing (R135). -/
theorem countEvents_enableThen (bytes : List Byte) :
    countEvents (frameEvents [0x06#8] 0 [] ++ frameEvents bytes 0 []) = ⟨28 + 24 * bytes.length, 0, 0, 0⟩ := by
  simp only [countEvents_append, countEvents_frameEvents _ 0 [] rfl, List.length_singleton, Counts.mk.injEq, and_true]
  omega

/-! ### The levels drawn by two frames in a row -/

theorem Drew.append {s t : State} {m n : Nat} {a b : List Bool} (ha : s.Drew m a) (hb : t.Drew n b)
    (ht : t.misoIn = s.misoIn.drop m) : s.Drew (m + n) (a ++ b) := by
  obtain ⟨hlenA, hinA⟩ := ha
  obtain ⟨hlenB, hinB⟩ := hb
  rw [ht, List.length_drop] at hinB
  exact ⟨by rw [List.length_append, hlenA, hlenB], by rw [List.take_append, hinA, hlenA, hinB, List.take_add]⟩

/-! ### The response buffer (10_state.md R17) -/

/-- Entries below `k` and past the bytes stored keep what they held. -/
theorem getElem_storeFrom (rbuf : Vector (Option Byte) 8) (k : Nat) (bytes : List Byte) (i : Nat) (hi : i < 8) :
    (storeFrom rbuf k bytes)[i] = if i < k then rbuf[i] else (bytes[i - k]?.map some).getD rbuf[i] := by
  induction bytes generalizing rbuf k with
  | nil => simp [storeFrom]
  | cons b rest ih =>
    rw [storeFrom, ih]
    rcases Nat.lt_trichotomy i k with hlt | heq | hgt
    · simp [hlt, Nat.lt_succ_of_lt hlt, Vector.getElem_setIfInBounds_ne hi hlt.ne']
    · simp [heq]
    · obtain ⟨j, rfl⟩ := Nat.exists_eq_add_of_lt hgt
      have hkeep : (rbuf.setIfInBounds k (some b))[k + j + 1] = rbuf[k + j + 1] :=
        Vector.getElem_setIfInBounds_ne hi hgt.ne
      rw [hkeep, if_neg (by omega), if_neg (by omega), show k + j + 1 - (k + 1) = j by omega,
        show k + j + 1 - k = j + 1 by omega, List.getElem?_cons_succ]

/-- The five bytes of the two identification frames (R125). -/
theorem storeFrom_identify (rbuf : Vector (Option Byte) 8) (q0 q1 q2 q3 q4 : Byte) :
    storeFrom (storeFrom rbuf 0 [q0, q1]) 2 [q2, q3, q4] =
      #v[some q0, some q1, some q2, some q3, some q4, rbuf[5], rbuf[6], rbuf[7]] := by
  apply Vector.ext
  intro i hi
  simp only [getElem_storeFrom]
  interval_cases i <;> rfl

/-- Eight bytes fill the buffer (R126). -/
theorem storeFrom_readUniqueId (rbuf : Vector (Option Byte) 8) (q0 q1 q2 q3 q4 q5 q6 q7 : Byte) :
    storeFrom rbuf 0 [q0, q1, q2, q3, q4, q5, q6, q7] =
      #v[some q0, some q1, some q2, some q3, some q4, some q5, some q6, some q7] := by
  apply Vector.ext
  intro i hi
  rw [getElem_storeFrom]
  interval_cases i <;> rfl

/-! ### Passing and failing the checks -/

/-- Outside Bit-Bang mode a command that needs it is F_MODE and nothing else (60_exceptions.md R161). -/
theorem hostCommand_outsideBitBang {op : HostOp} {len : Length} {addr : Address} {body : State → Result Unit}
    {s : State} (hop : needsBitBang op = true) (hs : s.seq = .idle) (hm : s.mode ≠ .bitBang) :
    hostCommand op len addr body s = .next (raiseFault (.mode op.code) s) :=
  hostCommand_faults op len addr body s _ hs (admissionFault_mode op len s hop hm)

/-- In a ready state a command with nothing missing of its operands does what its procedure does. -/
theorem hostCommand_ready {op : HostOp} {len : Length} {addr : Address} {body : State → Result Unit} {s t : State}
    (hr : s.Ready) (hop : operandFault op len s = none) (hrun : body (loadOperands op len addr s) = .done () t) :
    hostCommand op len addr body s = .next t := by
  have hadmit : admissionFault op len s = none := (admissionFault_bitBang op len s hr.mode).trans hop
  rw [hostCommand_runs op len addr body s hr.seq hadmit, hrun, state_done]

end Sys2Proof.Machine

namespace Sys2Proof

/-- The address bytes of a host address of any width: loading it drops only what no byte of it holds (R66, D12). -/
theorem addressBytes_ofNat (address : Nat) :
    addressBytes (BitVec.ofNat 24 address) =
      [BitVec.ofNat 8 (address / 65536), BitVec.ofNat 8 (address / 256), BitVec.ofNat 8 address] := by
  simp only [addressBytes_eq_ofNat, BitVec.toNat_ofNat, List.cons.injEq, and_true]
  refine ⟨?_, ?_, ?_⟩ <;>
  · apply BitVec.eq_of_toNat_eq
    simp only [BitVec.toNat_ofNat]
    omega

end Sys2Proof
end

section
/-! The commands of 43_command_protocol.md that receive: `isBusy` R124, `identify` R125, `readUniqueId` R126. -/

namespace Sys2Proof.Machine

theorem receivedBytes_one (bits : List Bool) (h : bits.length = 8) : receivedBytes 1 bits = [byteOfBits bits] := by
  have hsucc := receivedBytes_succ 0 bits [] h
  rwa [List.append_nil] at hsucc

/-- The busy flag is the last sample, since the last of eight shifts puts it into bit 0 (R124). -/
theorem busyFlag_byteOfBits (bits : List Bool) (h : bits.length = 8) :
    busyFlag (byteOfBits bits) = bits.getD 7 false := by
  have hlast (v : Byte) : busyFlag v = (byteBits v).getD 7 false := rfl
  rw [hlast, byteBits_byteOfBits bits h]

/-- The procedure of `isBusy`, from idle. -/
theorem isBusy_idle (s : State) (h : s.framer = .idle) :
    ∃ bits, s.Drew 8 bits ∧
      isBusy s = .done () { s.afterFrame [0x05#8] 1 bits with busy := some (bits.getD 7 false) } := by
  obtain ⟨bits, hdrew, hsend⟩ := sendFrame_idle .readStatus 0 [] s h
  have hlen : bits.length = 8 := hdrew.1
  have hstatus : receivedBytes (descriptor .readStatus).received bits = [byteOfBits bits] := receivedBytes_one bits hlen
  refine ⟨bits, hdrew, ?_⟩
  rw [isBusy, readStatus, hsend, hstatus, ← busyFlag_byteOfBits bits hlen]
  rfl

/-- The procedure of `identify`, from idle. -/
theorem identify_idle (s : State) (h : s.framer = .idle) :
    ∃ a b, s.Drew 16 a ∧ (s.afterFrame [0x90#8, 0x00#8, 0x00#8, 0x00#8] 2 a).Drew 24 b ∧
      identify s =
        .done ()
          { (s.afterFrame [0x90#8, 0x00#8, 0x00#8, 0x00#8] 2 a).afterFrame [0x9F#8] 3 b with
            rbuf := storeFrom (storeFrom s.rbuf 0 (receivedBytes 2 a)) 2 (receivedBytes 3 b) } := by
  obtain ⟨a, hdrewA, hsendA⟩ := sendFrame_idle .identA 0 [] s h
  obtain ⟨b, hdrewB, hsendB⟩ := sendFrame_idle .identB 0 []
    (storeResponse 0 (receivedBytes 2 a) (s.afterFrame [0x90#8, 0x00#8, 0x00#8, 0x00#8] 2 a)) h
  refine ⟨a, b, hdrewA, hdrewB, ?_⟩
  rw [identify, hsendA, andThen_done]
  exact congrArg (Result.andThen · _) hsendB

/-- The procedure of `readUniqueId`, from idle. -/
theorem readUniqueId_idle (s : State) (h : s.framer = .idle) :
    ∃ bits, s.Drew 64 bits ∧
      readUniqueId s =
        .done ()
          { s.afterFrame [0x4B#8, 0x00#8, 0x00#8, 0x00#8, 0x00#8] 8 bits with
            rbuf := storeFrom s.rbuf 0 (receivedBytes 8 bits) } := by
  obtain ⟨bits, hdrew, hsend⟩ := sendFrame_idle .readUid 0 [] s h
  refine ⟨bits, hdrew, ?_⟩
  rw [readUniqueId, hsend]
  rfl

/-- Settles O22: the one byte received is the status byte, and its bit 0 is the last of the eight samples. -/
theorem isBusyEffect : Obligations.IsBusyEffect := by
  intro len addr s
  refine ⟨hostCommand_outsideBitBang rfl, fun hr => ?_⟩
  obtain ⟨bits, hdrew, hrun⟩ := isBusy_idle s hr.framer
  refine ⟨bits, hdrew, ?_, countEvents_frameEvents [0x05#8] 1 bits hdrew.1⟩
  exact hostCommand_ready hr rfl hrun

/-- Settles O23: the levels of the two frames follow each other, and so do their bytes in the response buffer. -/
theorem identifyEffect : Obligations.IdentifyEffect := by
  intro len addr s
  refine ⟨hostCommand_outsideBitBang rfl, fun hr => ?_⟩
  obtain ⟨a, b, hdrewA, hdrewB, hrun⟩ := identify_idle s hr.framer
  refine ⟨a, b, _, _, _, _, _, Drew.append hdrewA hdrewB rfl, hdrewA.1, rfl, rfl, ?_, ?_⟩
  · rw [← storeFrom_identify]
    exact hostCommand_ready hr rfl hrun
  · rw [countEvents_append, countEvents_frameEvents _ 2 a hdrewA.1, countEvents_frameEvents _ 3 b hdrewB.1]
    rfl

/-- Settles O24: the eight bytes of the one frame fill the response buffer. -/
theorem readUniqueIdEffect : Obligations.ReadUniqueIdEffect := by
  intro len addr s
  refine ⟨hostCommand_outsideBitBang rfl, fun hr => ?_⟩
  obtain ⟨bits, hdrew, hrun⟩ := readUniqueId_idle s hr.framer
  refine ⟨bits, _, _, _, _, _, _, _, _, hdrew, rfl, ?_, countEvents_frameEvents _ 8 bits hdrew.1⟩
  rw [← storeFrom_readUniqueId s.rbuf]
  exact hostCommand_ready hr rfl hrun

end Sys2Proof.Machine
end

section
/-! The commands of 43_command_protocol.md that only send: the erases R127 to R129, `beginWrite` R130, `hold` R131 and
`unhold` R132. -/

namespace Sys2Proof.Machine

theorem hold_idle (s : State) (h : s.framer = .idle) : hold s = .done () (s.afterSend [0xB9#8]) := by
  rw [hold, sendFrame_send _ _ _ s h rfl]
  rfl

theorem unhold_idle (s : State) (h : s.framer = .idle) : unhold s = .done () (s.afterSend [0xAB#8]) := by
  rw [unhold, sendFrame_send _ _ _ s h rfl]
  rfl

/-- Too few bytes supplied is F_OPERAND with the first missing index, and nothing else (60_exceptions.md R163). -/
theorem hostCommand_beginWrite_short {len : Length} {addr : Address} {body : State → Result Unit} {s : State}
    (hs : s.seq = .idle) (hm : s.mode = .bitBang) (hshort : ¬ s.Supplied len) :
    hostCommand .beginWrite len addr body s = .next (raiseFault (.operand s.pbuf.length) s) := by
  have hop : operandFault .beginWrite len s = some (.operand s.pbuf.length) :=
    congrArg (Option.map FaultCause.operand) (missingPayload_short len s hshort)
  exact hostCommand_faults _ len addr body s _ hs ((admissionFault_bitBang _ len s hm).trans hop)

/-- Settles O25: each erase is a write enable and then its frame, for an address that is loaded first. -/
theorem eraseEffect : Obligations.EraseEffect := by
  intro len address s addr a
  have ha : addressBytes addr = a := addressBytes_ofNat address
  refine ⟨fun hs hm => ⟨?_, ?_, ?_⟩, fun hr => ⟨?_, ?_, ?_, fun opcode => countEvents_enableThen (opcode :: a)⟩⟩
  · exact hostCommand_outsideBitBang rfl hs hm
  · exact hostCommand_outsideBitBang rfl hs hm
  · exact hostCommand_outsideBitBang rfl hs hm
  · rw [← ha, ← frameBytes_erase4K]
    exact hostCommand_enableThen hr rfl rfl rfl rfl
  · rw [← ha, ← frameBytes_erase32K]
    exact hostCommand_enableThen hr rfl rfl rfl rfl
  · rw [← ha, ← frameBytes_erase64K]
    exact hostCommand_enableThen hr rfl rfl rfl rfl

/-- Settles O26: the payload sent is the first `min(LEN, 256)` entries of the buffer, so the page limit of the frame
cuts nothing off; the checks come before the operands are loaded. -/
theorem beginWriteEffect : Obligations.BeginWriteEffect := by
  intro len address s n addr a
  have ha : addressBytes addr = a := addressBytes_ofNat address
  have hbytes : frameBytes .pageProgram addr (payloadBytes len s.pbuf) = 0x02#8 :: a ++ s.pbuf.take n :=
    ha ▸ frameBytes_pageProgram addr _ (payloadBytes_length_le len s.pbuf)
  refine ⟨hostCommand_outsideBitBang rfl, fun hs hm hshort => ?_, fun hr hsup => ⟨?_, ?_⟩⟩
  · exact hostCommand_beginWrite_short hs hm (Nat.not_le.mpr hshort)
  · have hop : operandFault .beginWrite len s = none :=
      congrArg (Option.map FaultCause.operand) (missingPayload_supplied len s hsup)
    rw [← hbytes]
    exact hostCommand_enableThen hr hop rfl rfl rfl
  · have hlen : (0x02#8 :: a ++ s.pbuf.take n).length = 4 + n := by
      rw [List.length_append, List.length_take_of_le hsup]
      rfl
    rw [countEvents_enableThen, hlen, Counts.mk.injEq]
    omega

/-- Settles O27: each is one frame, after which the state is that of the frame alone. -/
theorem holdUnholdEffect : Obligations.HoldUnholdEffect := by
  intro len addr s
  refine ⟨fun hs hm => ⟨?_, ?_⟩, fun hr => ⟨?_, ?_⟩, ?_, ?_⟩
  · exact hostCommand_outsideBitBang rfl hs hm
  · exact hostCommand_outsideBitBang rfl hs hm
  · exact hostCommand_ready hr rfl (hold_idle s hr.framer)
  · exact hostCommand_ready hr rfl (unhold_idle s hr.framer)
  · exact countEvents_frameEvents [0xB9#8] 0 [] rfl
  · exact countEvents_frameEvents [0xAB#8] 0 [] rfl

end Sys2Proof.Machine
end

section
/-! The life cycle of the Device Mode (spec/44_mode_controller.md R153): where `init` and `teardown` end, what the nine
other commands do on either side of the mode check, and that nothing else writes `MODE`. -/

namespace Sys2Proof.Machine

/-! ### `init` and `teardown` -/

/-- The two Reset/Wake frames with the delay point between them, from idle (43_command_protocol.md R123). -/
theorem resetWake_idle (midMs : Nat) (s : State) (h : s.framer = .idle) :
    resetWake midMs s =
      .done () ((delayPoint midMs (s.afterSend (frameBytes .exitExt 0 []))).afterSend (frameBytes .wake 0 [])) := by
  have hframer : (delayPoint midMs (s.afterSend (frameBytes .exitExt 0 []))).framer = .idle := h
  rw [resetWake, sendFrame_send _ _ _ s h rfl, andThen_done, sendFrame_send _ _ _ _ hframer rfl, andThen_done]

/-- Its frames and delays leave the mode as the one mode write of `init` sets it (R150). -/
theorem initWith_mode (d : Delays) (s : State) (h : s.framer = .idle) : (initWith d s).state.mode = .bitBang := by
  have hframer : (delayPoint d.preMs (selectMode .bitBang (writeSignals Config.initClock false true false s))).framer =
      .idle := h
  rw [initWith, resetWake_idle _ _ hframer]
  rfl

/-! ### The nine commands that need Bit-Bang mode -/

/-- The procedure of each host command, after its checks. -/
def procedure (op : HostOp) : State → Result Unit :=
  match op with
  | .init => initCommand
  | .teardown => teardown
  | .isBusy => isBusy
  | .identify => identify
  | .readUniqueId => readUniqueId
  | .beginErase4K => beginErase4K
  | .beginErase32K => beginErase32K
  | .beginErase64K => beginErase64K
  | .beginWrite => beginWrite
  | .hold => hold
  | .unhold => unhold

theorem exec_instr (op : HostOp) (len : Length) (addr : Address) (s : State) :
    exec (op.instr len addr) s = hostCommand op len addr (procedure op) s := by
  cases op <;> rfl

theorem needsBitBang_iff (op : HostOp) : needsBitBang op = true ↔ op ≠ .init ∧ op ≠ .teardown := by
  cases op <;> decide

/-- Only `beginWrite` can miss an operand (60_exceptions.md R163). -/
theorem operandFault_eq_none {op : HostOp} {len : Length} {s : State} (h : op = .beginWrite → s.Supplied len) :
    operandFault op len s = none := by
  cases op with
  | beginWrite => exact congrArg (Option.map FaultCause.operand) (missingPayload_supplied len s (h rfl))
  | _ => rfl

@[simp] theorem loadOperands_fault (op : HostOp) (len : Length) (addr : Address) (s : State) :
    (loadOperands op len addr s).fault = s.fault := by
  cases op <;> rfl

/-- The procedure completes from `s`, with at least one event and no fault raised. -/
def CompletesWithEvents (r : Result Unit) (s : State) : Prop :=
  ∃ t es, r = .done () t ∧ s.Emitted t es ∧ es ≠ [] ∧ t.fault = s.fault

theorem frameEvents_ne_nil {bytes : List Byte} {count : Nat} {bits : List Bool} : frameEvents bytes count bits ≠ [] :=
  List.cons_ne_nil _ _

theorem enableThen_completes (f : FrameName) (payload : List Byte) (s : State) (h : s.framer = .idle)
    (hq : (descriptor f).received = 0) : CompletesWithEvents (enableThen f payload s) s :=
  ⟨_, _, enableThen_idle f payload s h hq, Emitted.trans (emitted_afterFrame ..) (emitted_afterFrame ..),
    List.append_ne_nil_of_left_ne_nil frameEvents_ne_nil _, rfl⟩

/-- Each of the nine procedures is one or two frames. -/
theorem procedure_completes {op : HostOp} (hop : needsBitBang op = true) (s : State) (h : s.framer = .idle) :
    CompletesWithEvents (procedure op s) s := by
  cases op with
  | init => cases hop
  | teardown => cases hop
  | isBusy =>
    obtain ⟨bits, -, hrun⟩ := isBusy_idle s h
    exact ⟨_, _, hrun, afterFrame_trace .., frameEvents_ne_nil, rfl⟩
  | identify =>
    obtain ⟨a, b, -, -, hrun⟩ := identify_idle s h
    exact ⟨_, _, hrun, Emitted.trans (emitted_afterFrame ..) (emitted_afterFrame ..),
      List.append_ne_nil_of_left_ne_nil frameEvents_ne_nil _, rfl⟩
  | readUniqueId =>
    obtain ⟨bits, -, hrun⟩ := readUniqueId_idle s h
    exact ⟨_, _, hrun, afterFrame_trace .., frameEvents_ne_nil, rfl⟩
  | beginErase4K => exact enableThen_completes _ _ s h rfl
  | beginErase32K => exact enableThen_completes _ _ s h rfl
  | beginErase64K => exact enableThen_completes _ _ s h rfl
  | beginWrite => exact enableThen_completes _ _ s h rfl
  | hold => exact ⟨_, _, hold_idle s h, emitted_afterFrame .., frameEvents_ne_nil, rfl⟩
  | unhold => exact ⟨_, _, unhold_idle s h, emitted_afterFrame .., frameEvents_ne_nil, rfl⟩

/-- In a ready state a command with nothing missing of its operands executes (43_command_protocol.md R120). -/
theorem hostCommand_completes {op : HostOp} {len : Length} {addr : Address} {s : State}
    (hop : needsBitBang op = true) (hr : s.Ready) (hoperand : operandFault op len s = none) :
    ∃ u es, hostCommand op len addr (procedure op) s = .next u ∧ s.Emitted u es ∧ es ≠ [] ∧ u.fault = s.fault := by
  obtain ⟨u, es, hrun, hemit, hne, hfault⟩ :=
    procedure_completes hop (loadOperands op len addr s) ((loadOperands_framer op len addr s).trans hr.framer)
  rw [State.Emitted, loadOperands_trace] at hemit
  exact ⟨u, es, hostCommand_ready hr hoperand hrun, hemit, hne, hfault.trans (loadOperands_fault op len addr s)⟩

/-! ### Nothing else writes the mode -/

/-- Of the primitive operations only the mode write, which is left out here, changes `MODE`. -/
theorem mode_preserved (m : DeviceMode) : Preserved (fun s => s.mode = m) False where
  write h _ _ _ _ _ := h
  setFramer h _ := h
  clearAcc h := h
  sample h := h
  selectMode h := h.elim
  delay h _ := h
  loadAddr h _ := h
  loadLen h _ := h
  response h _ _ := h
  busy h _ := h
  success h := h
  raise h _ := h

/-- Settles O41: `init` and `teardown` pass every check and end with the mode their mode write sets; the nine others are
the mode check on one side and their frames on the other; every other primitive operation keeps the mode. -/
theorem modeLifeCycle : Obligations.ModeLifeCycle := by
  refine ⟨rfl, fun len addr s t hidle => ⟨fun h => ?_, fun h => ?_, fun op hi ht hm => ?_, fun op hi ht hm hsup => ?_,
    fun i hi ht h => ?_⟩⟩
  · have hrun := hostCommand_runs .init len addr initCommand s hidle.seq rfl
    rw [← next_inj (hrun.symm.trans h)]
    exact initWith_mode Config.delays s hidle.framer
  · have hrun := hostCommand_runs .teardown len addr teardown s hidle.seq rfl
    rw [← next_inj (hrun.symm.trans h)]
    rfl
  · rw [exec_instr]
    exact hostCommand_outsideBitBang ((needsBitBang_iff op).mpr ⟨hi, ht⟩) hidle.seq hm
  · rw [exec_instr]
    exact hostCommand_completes ((needsBitBang_iff op).mpr ⟨hi, ht⟩) ⟨hidle, hm⟩ (operandFault_eq_none hsup)
  · exact (mode_preserved s.mode).exec rfl (.inr ⟨hi, ht⟩) h

end Sys2Proof.Machine
end

section
/-! The two encodings of spec/30_encoding.md, there and back: what the decoder reads from the code of each kind of
instruction, and that a code that decodes is the code of what it decodes to. -/

namespace Sys2Proof

/-! ### Host words (R61) -/

@[simp] theorem decodeHost_code (op : HostOp) (len : Length) (addr : Address) :
    decodeHost (hostWord op.code len addr) = op.instr len addr := by
  cases op <;> simp [decodeHost, HostOp.code, HostOp.instr]

theorem decode_code (op : HostOp) (len : Length) (addr : Address) :
    decode (.host (hostWord op.code len addr)) = .ok (op.instr len addr) :=
  congrArg Except.ok (decodeHost_code op len addr)

@[simp] theorem decodeHost_reservedB (len : Length) (addr : Address) :
    decodeHost (hostWord 0xB#4 len addr) = .reservedB len addr := by
  simp [decodeHost]

@[simp] theorem decodeHost_reservedCF (low : BitVec 2) (len : Length) (addr : Address) :
    decodeHost (hostWord (0b11#2 ++ low) len addr) = .reservedCF low len addr := by
  have hop : ∀ low : BitVec 2, decodeHost (hostWord (0b11#2 ++ low) len addr) =
      .reservedCF ((0b11#2 ++ low).extractLsb' 0 2) len addr := by
    intro low
    have hcases : ∀ low : BitVec 2, low = 0 ∨ low = 1 ∨ low = 2 ∨ low = 3 := by decide
    rcases hcases low with rfl | rfl | rfl | rfl <;> simp [decodeHost]
  have hlow : (0b11#2 ++ low).extractLsb' 0 2 = low := by revert low; decide
  rw [hop, hlow]

/-- The rows of R61 cover every op field: the eleven commands, 0xB, and 0xC to 0xF. -/
theorem opField_cases (op : BitVec 4) :
    (∃ command : HostOp, op = command.code) ∨ op = 0xB#4 ∨ ∃ low : BitVec 2, op = 0b11#2 ++ low := by
  have hrows : ∀ op : BitVec 4,
      op ∈ [HostOp.init, .teardown, .isBusy, .identify, .readUniqueId, .beginErase4K, .beginErase32K, .beginErase64K,
        .beginWrite, .hold, .unhold].map HostOp.code ∨ op = 0xB#4 ∨ ∃ low : BitVec 2, op = 0b11#2 ++ low := by decide
  refine (hrows op).imp_left fun h => ?_
  obtain ⟨command, -, rfl⟩ := List.mem_map.mp h
  exact ⟨command, rfl⟩

theorem encode_instr (op : HostOp) (len : Length) (addr : Address) :
    encode (op.instr len addr) = .host (hostWord op.code len addr) := by
  cases op <;> rfl

/-- What a host word decodes to is well formed and has the word as its code. -/
theorem encode_decodeHost (w : BitVec 44) : encode (decodeHost w) = .host w ∧ (decodeHost w).wellFormed = true := by
  rw [← hostWord_fields w]
  rcases opField_cases (opField w) with ⟨op, hop⟩ | hop | ⟨low, hop⟩ <;> rw [hop]
  · rw [decodeHost_code]
    exact ⟨encode_instr .., by cases op <;> rfl⟩
  · rw [decodeHost_reservedB]
    exact ⟨rfl, rfl⟩
  · rw [decodeHost_reservedCF]
    exact ⟨rfl, rfl⟩

/-! ### Wire frames (R62 to R65) -/

/-- The first byte chooses the format. -/
theorem decodeFrame_opcode (f : FrameName) (rest : List Byte) :
    decodeFrame ((descriptor f).opcode :: rest) = decodeRest f rest := by
  simp only [decodeFrame, frameOfOpcode_opcode]

theorem decodeConstant_eq_ok_iff (f : FrameName) (i j : Instr) (rest : List Byte) :
    decodeConstant f i rest = .ok j ↔ j = i ∧ (descriptor f).opcode :: rest = frameBytes f 0 [] := by
  by_cases hbytes : (descriptor f).opcode :: rest = frameBytes f 0 []
  · rw [decodeConstant, if_pos hbytes]
    exact ⟨fun h => ⟨(Except.ok.inj h).symm, hbytes⟩, fun h => congrArg Except.ok h.1.symm⟩
  · rw [decodeConstant, if_neg hbytes]
    exact ⟨nofun, fun h => absurd h.2 hbytes⟩

theorem decodeAddressed_addressBytes (f : FrameName) (i : Address → Instr) (addr : Address) :
    decodeAddressed f i (addressBytes addr) = .ok (i addr) := by
  simp only [addressBytes, decodeAddressed, joinAddress_bytes]

theorem decodeAddressed_ok {f : FrameName} {i : Address → Instr} {j : Instr} {rest : List Byte}
    (h : decodeAddressed f i rest = .ok j) : ∃ addr, j = i addr ∧ rest = addressBytes addr := by
  unfold decodeAddressed at h
  split at h
  · rename_i a2 a1 a0
    exact ⟨joinAddress a2 a1 a0, (Except.ok.inj h).symm, (addressBytes_join a2 a1 a0).symm⟩
  · cases h

theorem decodePageProgram_addressBytes (addr : Address) (payload : List Byte) (h : payload.length ≤ 256) :
    decodePageProgram (addressBytes addr ++ payload) = .ok (.pageProgram addr payload) := by
  have hfits := (payloadFits_iff payload).mpr h
  simp only [addressBytes, List.cons_append, List.nil_append, decodePageProgram, hfits, if_true, joinAddress_bytes]

theorem decodePageProgram_ok {j : Instr} {rest : List Byte} (h : decodePageProgram rest = .ok j) :
    ∃ addr payload, j = .pageProgram addr payload ∧ payload.length ≤ 256 ∧ rest = addressBytes addr ++ payload := by
  unfold decodePageProgram at h
  split at h
  · rename_i a2 a1 a0 payload
    split at h
    · rename_i hfits
      refine ⟨joinAddress a2 a1 a0, payload, (Except.ok.inj h).symm, (payloadFits_iff payload).mp hfits, ?_⟩
      rw [addressBytes_join]
      rfl
    · cases h
  · cases h

/-- Settles O1: a host word is read back field by field, a frame by its opcode and then by the format of its row. -/
theorem instructionRoundTrip : Obligations.InstructionRoundTrip := by
  intro i hwf
  have hframe {f : FrameName} {rest : List Byte} {j : Instr} (h : decodeRest f rest = .ok j) :
      decode (.frame ((descriptor f).opcode :: rest)) = .ok j := (decodeFrame_opcode f rest).trans h
  have hconst {f : FrameName} {j : Instr} (hf : ∀ rest, decodeRest f rest = decodeConstant f j rest) :
      decode (.frame (frameBytes f 0 [])) = .ok j :=
    hframe ((hf _).trans ((decodeConstant_eq_ok_iff f j j _).mpr ⟨rfl, rfl⟩))
  cases i with
  | init len addr => exact decode_code .init len addr
  | teardown len addr => exact decode_code .teardown len addr
  | isBusy len addr => exact decode_code .isBusy len addr
  | identify len addr => exact decode_code .identify len addr
  | readUniqueId len addr => exact decode_code .readUniqueId len addr
  | beginErase4K len addr => exact decode_code .beginErase4K len addr
  | beginErase32K len addr => exact decode_code .beginErase32K len addr
  | beginErase64K len addr => exact decode_code .beginErase64K len addr
  | beginWrite len addr => exact decode_code .beginWrite len addr
  | hold len addr => exact decode_code .hold len addr
  | unhold len addr => exact decode_code .unhold len addr
  | reservedB len addr => exact congrArg Except.ok (decodeHost_reservedB len addr)
  | reservedCF low len addr => exact congrArg Except.ok (decodeHost_reservedCF low len addr)
  | identA => exact hconst fun _ => rfl
  | identB => exact hconst fun _ => rfl
  | readUid => exact hconst fun _ => rfl
  | readStatus => exact hconst fun _ => rfl
  | writeEnable => exact hconst fun _ => rfl
  | erase4K addr => exact hframe (decodeAddressed_addressBytes .erase4K .erase4K addr)
  | erase32K addr => exact hframe (decodeAddressed_addressBytes .erase32K .erase32K addr)
  | erase64K addr => exact hframe (decodeAddressed_addressBytes .erase64K .erase64K addr)
  | pageProgram addr payload =>
    have hlen : payload.length ≤ 256 := (payloadFits_iff payload).mp hwf
    have hbytes : encode (.pageProgram addr payload) = .frame (0x02#8 :: addressBytes addr ++ payload) :=
      congrArg Code.frame (frameBytes_pageProgram addr payload hlen)
    rw [hbytes]
    exact hframe (f := .pageProgram) (decodePageProgram_addressBytes addr payload hlen)
  | exitExt => exact hconst fun _ => rfl
  | wake => exact hconst fun _ => rfl
  | holdFrame => exact hconst fun _ => rfl

/-- Bytes that a format accepts are, behind the opcode, the frame of a well-formed instruction. -/
theorem encode_of_decodeRest {f : FrameName} {rest : List Byte} {i : Instr} (h : decodeRest f rest = .ok i) :
    encode i = .frame ((descriptor f).opcode :: rest) ∧ i.wellFormed = true := by
  have hconst {f : FrameName} {j : Instr} (henc : encode j = .frame (frameBytes f 0 [])) (hwf : j.wellFormed = true)
      (h : decodeConstant f j rest = .ok i) :
      encode i = .frame ((descriptor f).opcode :: rest) ∧ i.wellFormed = true := by
    obtain ⟨rfl, hbytes⟩ := (decodeConstant_eq_ok_iff f j i rest).mp h
    exact ⟨by rw [henc, hbytes], hwf⟩
  cases f with
  | identA => exact hconst rfl rfl h
  | identB => exact hconst rfl rfl h
  | readUid => exact hconst rfl rfl h
  | readStatus => exact hconst rfl rfl h
  | writeEnable => exact hconst rfl rfl h
  | erase4K => obtain ⟨addr, rfl, rfl⟩ := decodeAddressed_ok h; exact ⟨rfl, rfl⟩
  | erase32K => obtain ⟨addr, rfl, rfl⟩ := decodeAddressed_ok h; exact ⟨rfl, rfl⟩
  | erase64K => obtain ⟨addr, rfl, rfl⟩ := decodeAddressed_ok h; exact ⟨rfl, rfl⟩
  | pageProgram =>
    obtain ⟨addr, payload, rfl, hlen, rfl⟩ := decodePageProgram_ok h
    exact ⟨congrArg Code.frame (frameBytes_pageProgram addr payload hlen), (payloadFits_iff payload).mpr hlen⟩
  | exitExt => exact hconst rfl rfl h
  | wake => exact hconst rfl rfl h
  | hold => exact hconst rfl rfl h

/-- Settles O2: a host word keeps its fields, and a frame that decodes has the opcode it was found by and the bytes its
format accepts. -/
theorem codeRoundTrip : Obligations.CodeRoundTrip := by
  intro c i h
  cases c with
  | host w =>
    obtain rfl : decodeHost w = i := Except.ok.inj h
    exact encode_decodeHost w
  | frame bytes =>
    cases bytes with
    | nil => cases h
    | cons b rest =>
      cases hf : frameOfOpcode b with
      | none => simp [decode, decodeFrame, hf] at h
      | some f =>
        obtain rfl := opcode_of_frameOfOpcode b f hf
        exact encode_of_decodeRest ((decodeFrame_opcode f rest).symm.trans h)

/-- Settles O3: each of the nine words is decoded. -/
theorem specWordsDecode : Obligations.SpecWordsDecode := by
  refine ⟨?_, ?_, ?_, ?_, ?_, ?_, ?_, ?_, ?_⟩ <;> decide

/-- Settles O4: appending fields adds their values shifted, and the decoder reads the op codes of the table. -/
theorem hostWordLayout : Obligations.HostWordLayout := by
  refine ⟨fun op len addr => ?_, decodeHost_code, rfl, decodeHost_reservedB, decodeHost_reservedCF⟩
  have hlen := len.isLt
  have haddr := addr.isLt
  rw [hostWord, BitVec.toNat_append, BitVec.toNat_append, ← Nat.shiftLeft_add_eq_or_of_lt hlen,
    ← Nat.shiftLeft_add_eq_or_of_lt haddr, Nat.shiftLeft_eq, Nat.shiftLeft_eq]
  omega

/-- Settles O6: the byte lists of the constant frames are those of the descriptor table. -/
theorem constantFrameBytes : Obligations.ConstantFrameBytes := by
  refine ⟨?_, ?_, ?_, ?_, ?_, ?_, ?_, ?_, ?_⟩ <;> rfl

end Sys2Proof
end

section
/-! Everything an instruction can do from an idle state, said once: it is refused by a fault check, or it passes through
whole frames, mode writes, delay points and updates of operand and result registers. -/

namespace Sys2Proof.Machine

/-- The causes of the checks made when an instruction is accepted: F_RESERVED_OP, F_MODE, F_OPERAND
(60_exceptions.md R167). -/
def FaultCause.OfCheck (c : FaultCause) : Prop := c.code = 1 ∨ c.code = 2 ∨ c.code = 3

theorem admissionFault_ofCheck {op : HostOp} {len : Length} {s : State} {c : FaultCause}
    (h : admissionFault op len s = some c) : c.OfCheck := by
  unfold admissionFault at h
  split at h
  · obtain rfl := Option.some.inj h
    exact .inr (.inl rfl)
  · cases op with
    | beginWrite =>
      obtain ⟨i, -, rfl⟩ := Option.map_eq_some_iff.mp h
      exact .inr (.inr rfl)
    | _ => cases h

/-- `u` differs from `t` at most in the operand registers and in the results the host reads. -/
def State.SameControl (t u : State) : Prop :=
  u = { t with addr := u.addr, len := u.len, rbuf := u.rbuf, busy := u.busy, rc := u.rc }

/-- The states between the operations of an instruction accepted in `s`. -/
inductive Passes (s : State) : State → Prop where
  | accepted : Passes s s
  /-- An operand register is loaded, or a result stored. -/
  | store {t u : State} (h : Passes s t) (hu : t.SameControl u) : Passes s u
  | frame {t : State} (bytes : List Byte) (count : Nat) (bits : List Bool) (h : Passes s t) :
    Passes s (t.afterFrame bytes count bits)
  /-- The first two events of `init` (44_mode_controller.md R150). -/
  | connect {t : State} (h : Passes s t) :
    Passes s (selectMode .bitBang (writeSignals Config.initClock false true false t))
  /-- A delay point of `init`, which comes after them. -/
  | delay {t : State} (ms : Nat) (h : Passes s t) (hmode : t.mode = .bitBang) : Passes s (delayPoint ms t)
  /-- The event of `teardown` (44_mode_controller.md R151). -/
  | disconnect {t : State} (h : Passes s t) : Passes s (selectMode .memoryMapped t)

/-! ### The procedures -/

theorem sendFrame_passes {f : FrameName} {addr : Address} {payload : List Byte} {s t : State} (h : Passes s t)
    (hf : t.framer = .idle) : Passes s (sendFrame f addr payload t).state := by
  obtain ⟨bits, -, hrun⟩ := sendFrame_idle f addr payload t hf
  rw [hrun]
  exact h.frame ..

/-- A frame whose response is kept in a result register. -/
theorem sendFrame_store_passes (f : FrameName) (store : List Byte → State → State)
    (hstore : ∀ q t, State.SameControl t (store q t)) {s : State} (hf : s.framer = .idle) :
    Passes s ((sendFrame f 0 [] s).andThen fun q t => .done () (store q t)).state := by
  obtain ⟨bits, -, hrun⟩ := sendFrame_idle f 0 [] s hf
  rw [hrun]
  exact (Passes.accepted.frame ..).store (hstore _ _)

theorem enableThen_passes {f : FrameName} {payload : List Byte} {s t : State} (h : Passes s t) (hf : t.framer = .idle)
    (hq : (descriptor f).received = 0) : Passes s (enableThen f payload t).state := by
  rw [enableThen_idle f payload t hf hq]
  exact (h.frame ..).frame ..

/-- `init` from idle: the state after each of its operations is the one before it, updated (R150, R152). -/
theorem initWith_idle (d : Delays) (s : State) (h : s.framer = .idle) :
    initWith d s =
      .done () (storeSuccess (delayPoint d.postMs ((delayPoint d.midMs ((delayPoint d.preMs (selectMode .bitBang
        (writeSignals Config.initClock false true false s))).afterSend (frameBytes .exitExt 0 []))).afterSend
          (frameBytes .wake 0 [])))) := by
  have hframer : (delayPoint d.preMs (selectMode .bitBang (writeSignals Config.initClock false true false s))).framer =
      .idle := h
  rw [initWith, resetWake_idle _ _ hframer, andThen_done]

theorem initWith_passes (d : Delays) {s : State} (h : s.framer = .idle) : Passes s (initWith d s).state := by
  rw [initWith_idle d s h]
  exact (((((Passes.accepted.connect.delay _ rfl).frame ..).delay _ rfl).frame ..).delay _ rfl).store rfl

theorem loadOperands_sameControl (op : HostOp) (len : Length) (addr : Address) (s : State) :
    s.SameControl (loadOperands op len addr s) := by
  cases op <;> rfl

theorem Passes.trans {s t u : State} (h1 : Passes s t) (h2 : Passes t u) : Passes s u := by
  induction h2 with
  | accepted => exact h1
  | store _ hu ih => exact ih.store hu
  | frame bytes count bits _ ih => exact ih.frame ..
  | connect _ ih => exact ih.connect
  | delay ms _ hmode ih => exact ih.delay ms hmode
  | disconnect _ ih => exact ih.disconnect

theorem procedure_passes (op : HostOp) {s : State} (h : s.framer = .idle) : Passes s (procedure op s).state := by
  cases op with
  | init => exact initWith_passes Config.delays h
  | teardown => exact Passes.accepted.disconnect
  | isBusy =>
    obtain ⟨bits, -, hrun⟩ := isBusy_idle s h
    rw [procedure, hrun]
    exact (Passes.accepted.frame ..).store rfl
  | identify =>
    obtain ⟨a, b, -, -, hrun⟩ := identify_idle s h
    rw [procedure, hrun]
    exact ((Passes.accepted.frame ..).frame ..).store rfl
  | readUniqueId => exact sendFrame_store_passes .readUid (storeResponse 0) (fun _ _ => rfl) h
  | beginErase4K => exact enableThen_passes .accepted h rfl
  | beginErase32K => exact enableThen_passes .accepted h rfl
  | beginErase64K => exact enableThen_passes .accepted h rfl
  | beginWrite => exact enableThen_passes .accepted h rfl
  | hold =>
    rw [procedure, hold_idle s h]
    exact Passes.accepted.frame ..
  | unhold =>
    rw [procedure, unhold_idle s h]
    exact Passes.accepted.frame ..

/-! ### Instructions -/

/-- The two ways an instruction ends that is accepted in `s`. -/
def Ends (s t : State) : Prop := (∃ c : FaultCause, c.OfCheck ∧ t = raiseFault c s) ∨ Passes s t

theorem hostCommand_ends (op : HostOp) (len : Length) (addr : Address) {s t : State} (hf : s.framer = .idle)
    (h : hostCommand op len addr (procedure op) s = .next t) : Ends s t := by
  obtain ⟨-, ⟨c, hc, rfl⟩ | ⟨-, rfl⟩⟩ := hostCommand_next _ _ _ _ _ _ h
  · exact .inl ⟨c, admissionFault_ofCheck hc, rfl⟩
  · have hloaded := Passes.accepted.store (loadOperands_sameControl op len addr s)
    exact .inr (hloaded.trans (procedure_passes op ((loadOperands_framer op len addr s).trans hf)))

/-- An instruction that answers a next state was accepted while the sequencer was idle (D29). -/
theorem exec_running (i : Instr) {s : State} {op : HostOp} {k : Nat} (h : s.seq = .running op k) :
    exec i s = .fault .commandInProgress := by
  cases i <;> exact whenIdle_running s _ op k h

theorem exec_next_idle {i : Instr} {s t : State} (h : exec i s = .next t) : s.seq = .idle := by
  cases hs : s.seq with
  | idle => rfl
  | running op k => rw [exec_running i hs] at h; cases h

theorem exec_ends {i : Instr} {s t : State} (hf : s.framer = .idle) (h : exec i s = .next t) : Ends s t := by
  have hsend {f : FrameName} {addr : Address} {payload : List Byte} (h : sendOnly f addr payload s = .next t) :
      Ends s t := by
    obtain ⟨-, rfl⟩ := whenIdle_next _ _ _ h
    exact .inr (sendFrame_passes .accepted hf)
  have hstore {f : FrameName} {k : Nat} (h : sendAndStore f k s = .next t) : Ends s t := by
    obtain ⟨-, rfl⟩ := whenIdle_next _ _ _ h
    exact .inr (sendFrame_store_passes f (storeResponse k) (fun _ _ => rfl) hf)
  cases i with
  | init l a => exact hostCommand_ends .init l a hf h
  | teardown l a => exact hostCommand_ends .teardown l a hf h
  | isBusy l a => exact hostCommand_ends .isBusy l a hf h
  | identify l a => exact hostCommand_ends .identify l a hf h
  | readUniqueId l a => exact hostCommand_ends .readUniqueId l a hf h
  | beginErase4K l a => exact hostCommand_ends .beginErase4K l a hf h
  | beginErase32K l a => exact hostCommand_ends .beginErase32K l a hf h
  | beginErase64K l a => exact hostCommand_ends .beginErase64K l a hf h
  | beginWrite l a => exact hostCommand_ends .beginWrite l a hf h
  | hold l a => exact hostCommand_ends .hold l a hf h
  | unhold l a => exact hostCommand_ends .unhold l a hf h
  | reservedB l a => exact .inl ⟨_, .inl rfl, (whenIdle_next _ _ _ h).2⟩
  | reservedCF low l a => exact .inl ⟨_, .inl rfl, (whenIdle_next _ _ _ h).2⟩
  | identA => exact hstore h
  | identB => exact hstore h
  | readUid => exact hstore h
  | readStatus =>
    obtain ⟨-, rfl⟩ := whenIdle_next _ _ _ h
    exact .inr (sendFrame_store_passes .readStatus (fun q => storeBusy (q.headD 0x00#8)) (fun _ _ => rfl) hf)
  | writeEnable => exact hsend h
  | erase4K a => exact hsend h
  | erase32K a => exact hsend h
  | erase64K a => exact hsend h
  | pageProgram a p => exact hsend h
  | exitExt => exact hsend h
  | wake => exact hsend h
  | holdFrame => exact hsend h

/-! ### What is left alone on the way -/

/-- `t` has the control, the fault record, the payload and the frame slot of `s`. -/
structure State.Undisturbed (s t : State) : Prop where
  seq : t.seq = s.seq
  framer : t.framer = s.framer
  fault : t.fault = s.fault
  fcause : t.fcause = s.fcause
  pbuf : t.pbuf = s.pbuf
  frameSlot : t.frameSlot = s.frameSlot

theorem Passes.undisturbed {s t : State} (h : Passes s t) : s.Undisturbed t := by
  induction h with
  | accepted => exact ⟨rfl, rfl, rfl, rfl, rfl, rfl⟩
  | store _ hu ih => rw [hu]; exact ⟨ih.seq, ih.framer, ih.fault, ih.fcause, ih.pbuf, ih.frameSlot⟩
  | frame _ _ _ _ ih => exact ⟨ih.seq, ih.framer, ih.fault, ih.fcause, ih.pbuf, ih.frameSlot⟩
  | connect _ ih => exact ⟨ih.seq, ih.framer, ih.fault, ih.fcause, ih.pbuf, ih.frameSlot⟩
  | delay _ _ _ ih => exact ⟨ih.seq, ih.framer, ih.fault, ih.fcause, ih.pbuf, ih.frameSlot⟩
  | disconnect _ ih => exact ⟨ih.seq, ih.framer, ih.fault, ih.fcause, ih.pbuf, ih.frameSlot⟩

/-- In Bit-Bang mode `SIG` is at rest between the operations (10_state.md R23). -/
theorem Passes.atRest {s t : State} (h : Passes s t) (hs : s.mode = .bitBang → s.sig = Signals.rest) :
    t.mode = .bitBang → t.sig = Signals.rest := by
  induction h with
  | accepted => exact hs
  | store _ hu ih => rw [hu]; exact ih
  | frame _ _ _ _ _ => exact fun _ => rfl
  | connect _ _ => exact fun _ => rfl
  | delay _ _ _ ih => exact ih
  | disconnect _ _ => exact nofun

end Sys2Proof.Machine
end

section
/-! The event lists of the host commands (10_state.md R20): how long they are, which events stand inside a transaction and
which outside, and what one event does in a state where it may stand. -/

namespace Sys2Proof.Machine

/-! ### Lengths -/

theorem transmitMicros_length (v : Byte) (n : Nat) : (transmitMicros v n).length = 3 * n := by
  induction n with
  | zero => rfl
  | succ n ih =>
    rw [transmitMicros, List.length_append, ih, Nat.mul_succ, Nat.add_comm]
    rfl

theorem receiveMicros_length (dest : Option Nat) : (receiveMicros dest).length = 25 := rfl

theorem frameMicros_length (bytes : List Byte) (dests : List (Option Nat)) :
    (frameMicros bytes dests).length = 2 + 24 * bytes.length + 25 * dests.length := by
  simp only [frameMicros, List.length_cons, List.length_append, List.length_flatMap, transmitMicros_length,
    receiveMicros_length, List.map_const', List.sum_replicate, smul_eq_mul, List.length_nil]
  omega

theorem delayMicros_length (ms : Nat) : (delayMicros ms).length = ([ms].filter (· ≠ 0)).length := by
  by_cases h : ms = 0 <;> simp [delayMicros, h]

theorem enableThenMicros_length (f : FrameName) (addr : Address) (payload : List Byte) :
    (enableThenMicros f addr payload).length = 28 + 24 * (frameBytes f addr payload).length := by
  have henable : (frameBytes .writeEnable 0 []).length = 1 := rfl
  rw [enableThenMicros, List.length_append, frameMicros_length, frameMicros_length, henable, List.length_nil]
  omega

/-- Settles O52: a sent byte is 24 events, a received byte 25, a frame two more; only the payload has no fixed length. -/
theorem eventListLengths : Obligations.EventListLengths := by
  intro d addr len pbuf hsup
  have hwrite : (commandMicros d .beginWrite addr len pbuf).length = 124 + 24 * min len.toNat 256 := by
    have hpayload : (payloadBytes len pbuf).length = min len.toNat 256 := List.length_take_of_le hsup
    rw [commandMicros, enableThenMicros_length,
      frameBytes_pageProgram _ _ (payloadBytes_length_le len pbuf), List.length_append, hpayload]
    simp only [List.length_cons, addressBytes, List.length_nil]
    omega
  refine ⟨?_, rfl, ?_, ?_, ?_, ?_, ?_, ?_, hwrite, hwrite ▸ by omega, ?_, ?_⟩
  · have hsplit : [d.preMs, d.midMs, d.postMs] = [d.preMs] ++ [d.midMs] ++ [d.postMs] := rfl
    have hexit : (frameBytes .exitExt 0 []).length = 8 := rfl
    have hwake : (frameBytes .wake 0 []).length = 1 := rfl
    rw [hsplit, List.filter_append, List.filter_append]
    simp only [commandMicros, List.length_append, frameMicros_length, delayMicros_length, hexit, hwake, List.length_cons,
      List.length_nil]
    omega
  · exact frameMicros_length _ _
  · exact List.length_append.trans (congrArg₂ (· + ·) (frameMicros_length _ _) (frameMicros_length _ _))
  · exact frameMicros_length _ _
  · exact enableThenMicros_length ..
  · exact enableThenMicros_length ..
  · exact enableThenMicros_length ..
  · exact frameMicros_length _ _
  · exact frameMicros_length _ _

/-! ### Inside and outside a transaction -/

/-- The framer after an event, or `none` where the event may not stand: outside a transaction only the write of `SIG` at
rest, the mode write and the delay call; inside only events that keep CHIP_SELECT low (42_transaction_framing.md R112). -/
def Micro.next (m : Micro) (f : Framer) : Option Framer :=
  match m, f with
  | .write v, .idle => if v = Signals.rest then some .idle else none
  | .write v, .active => if v.chipSelect then none else some .active
  | .openFrame, .idle => some .active
  | .openFrame, .active => none
  | .closeFrame, .idle => none
  | .closeFrame, .active => some .idle
  | .startReceive, .idle => none
  | .startReceive, .active => some .active
  | .sample, .idle => none
  | .sample, .active => some .active
  | .endReceive _, .idle => none
  | .endReceive _, .active => some .active
  | .selectMode _, .idle => some .idle
  | .selectMode _, .active => none
  | .delay ms, .idle => if ms = 0 then none else some .idle
  | .delay _, .active => none

/-- The framer after a list of events, if each of them may stand where it does. -/
def framing (f : Framer) (ms : List Micro) : Option Framer := ms.foldlM (fun g m => m.next g) f

theorem framing_append (f : Framer) (a b : List Micro) : framing f (a ++ b) = (framing f a).bind (framing · b) :=
  List.foldlM_append

theorem framing_concat (f : Framer) (ms : List Micro) (m : Micro) :
    framing f (ms ++ [m]) = (framing f ms).bind m.next := by
  have hone : (fun g => framing g [m]) = m.next := by
    funext g
    cases h : m.next g <;> simp [framing, h]
  rw [framing_append, hone]

theorem framing_trans {f g h : Framer} {a b : List Micro} (ha : framing f a = some g) (hb : framing g b = some h) :
    framing f (a ++ b) = some h := by
  rw [framing_append, ha, Option.bind_some, hb]

theorem framing_flatMap {α : Type} {f : Framer} {piece : α → List Micro} (h : ∀ x, framing f (piece x) = some f)
    (l : List α) : framing f (l.flatMap piece) = some f := by
  induction l with
  | nil => rfl
  | cons x rest ih => exact framing_trans (h x) ih

theorem framing_transmitMicros (v : Byte) (n : Nat) : framing .active (transmitMicros v n) = some .active := by
  induction n with
  | zero => rfl
  | succ n ih => exact framing_trans (a := transmitBitMicros _) rfl ih

theorem framing_frameMicros (bytes : List Byte) (dests : List (Option Nat)) :
    framing .idle (frameMicros bytes dests) = some .idle := by
  have hsent := framing_flatMap (fun v => framing_transmitMicros v 8) bytes
  have hreceived : framing .active (dests.flatMap receiveMicros) = some .active := framing_flatMap (fun _ => rfl) dests
  exact framing_trans (a := [.openFrame]) rfl (framing_trans (framing_trans hsent hreceived) rfl)

theorem framing_delayMicros (ms : Nat) : framing .idle (delayMicros ms) = some .idle := by
  by_cases h : ms = 0 <;> simp [delayMicros, framing, Micro.next, h]

theorem framing_enableThenMicros (f : FrameName) (addr : Address) (payload : List Byte) :
    framing .idle (enableThenMicros f addr payload) = some .idle :=
  framing_trans (framing_frameMicros ..) (framing_frameMicros ..)

/-- Every event of a command may stand where it does, and the last one leaves no transaction open. -/
theorem framing_commandMicros (d : Delays) (op : HostOp) (addr : Address) (len : Length) (pbuf : List Byte) :
    framing .idle (commandMicros d op addr len pbuf) = some .idle := by
  cases op with
  | init =>
    have hconnect : framing .idle [.write ⟨Config.initClock, false, true, false⟩, .selectMode .bitBang] = some .idle := rfl
    exact framing_trans (framing_trans (framing_trans (framing_trans (framing_trans hconnect (framing_delayMicros _))
      (framing_frameMicros ..)) (framing_delayMicros _)) (framing_frameMicros ..)) (framing_delayMicros _)
  | teardown => rfl
  | isBusy => exact framing_frameMicros ..
  | identify => exact framing_trans (framing_frameMicros ..) (framing_frameMicros ..)
  | readUniqueId => exact framing_frameMicros ..
  | beginErase4K => exact framing_enableThenMicros ..
  | beginErase32K => exact framing_enableThenMicros ..
  | beginErase64K => exact framing_enableThenMicros ..
  | beginWrite => exact framing_enableThenMicros ..
  | hold => exact framing_frameMicros ..
  | unhold => exact framing_frameMicros ..

/-- Where every event may stand, `framerAfter` is the framer reached. -/
theorem framerAfter_of_framing {ms : List Micro} {f : Framer} (h : framing .idle ms = some f) : framerAfter ms = f := by
  induction ms using List.reverseRecOn generalizing f with
  | nil => exact Option.some.inj h
  | append_singleton ms m ih =>
    rw [framing_concat] at h
    obtain ⟨g, hg, hm⟩ := Option.bind_eq_some_iff.mp h
    have hprev := ih hg
    rw [framerAfter] at hprev ⊢
    rw [List.foldl_append, hprev]
    cases m <;> cases g <;> simp_all [Micro.next]

/-- What the value of `SIG` tells of the framer: at rest outside a transaction, CHIP_SELECT low inside. -/
def Framer.Shows (f : Framer) (v : Signals) : Prop :=
  match f with
  | .idle => v = Signals.rest
  | .active => v.chipSelect = false

theorem Framer.Shows.chipSelect {f : Framer} {v : Signals} (h : f.Shows v) : f = .active ↔ v.chipSelect = false := by
  cases f with
  | idle =>
    obtain rfl : v = Signals.rest := h
    decide
  | active => exact ⟨fun _ => h, fun _ => rfl⟩

theorem Framer.Shows.next {f g : Framer} {v : Signals} {m : Micro} (h : f.Shows v) (hm : m.next f = some g) :
    g.Shows ((m.signals).getD v) := by
  cases m with
  | closeFrame =>
    cases f with
    | idle => cases hm
    | active =>
      obtain rfl : Framer.idle = g := Option.some.inj hm
      rfl
  | _ => cases f <;> cases g <;> simp_all [Micro.next, Micro.signals, Framer.Shows]

theorem Framer.Shows.framing {ms : List Micro} {f g : Framer} {v : Signals} (h : f.Shows v)
    (hms : framing f ms = some g) : g.Shows (signalsAfter v ms) := by
  induction ms generalizing f v with
  | nil =>
    obtain rfl : f = g := Option.some.inj hms
    exact h
  | cons m rest ih =>
    obtain ⟨f1, hm, hrest⟩ := Option.bind_eq_some_iff.mp hms
    exact ih (h.next hm) hrest

/-! ### One event -/

/-- One event of a command: exactly one event emitted, `SIG` and `MODE` as the event says, the operands left alone. -/
structure Micro.Does (m : Micro) (s t : State) : Prop where
  framer : m.next s.framer = some t.framer
  sig : t.sig = (m.signals).getD s.sig
  mode : t.mode = (m.mode).getD s.mode
  emits : ∃ e, t.trace = e :: s.trace
  addr : t.addr = s.addr
  len : t.len = s.len
  pbuf : t.pbuf = s.pbuf
  fault : t.fault = s.fault
  fcause : t.fcause = s.fcause
  frameSlot : t.frameSlot = s.frameSlot

/-- Only the ends of a transaction move the framer. -/
theorem Micro.next_eq_self {m : Micro} {f g : Framer} (h : m.next f = some g) (ho : m ≠ .openFrame)
    (hc : m ≠ .closeFrame) : m.next f = some f := by
  cases m <;> cases f <;> simp_all [Micro.next]

theorem Micro.next_openFrame {f g : Framer} (h : Micro.openFrame.next f = some g) : f = .idle := by
  cases f with
  | idle => rfl
  | active => cases h

theorem Micro.next_closeFrame {f g : Framer} (h : Micro.closeFrame.next f = some g) : f = .active := by
  cases f with
  | idle => cases h
  | active => rfl

theorem delayEvents_of_next {ms : Nat} {f g : Framer} (h : (Micro.delay ms).next f = some g) :
    delayEvents ms = [.delay ms] := by
  have hms : ms ≠ 0 := by
    rintro rfl
    cases f <;> cases h
  rw [delayEvents, if_neg hms]

/-- An event that may stand where it does raises no fault. -/
theorem Micro.run_does {m : Micro} {s : State} {f : Framer} (h : m.next s.framer = some f) :
    ∃ t, m.run s = .done () t ∧ m.Does s t := by
  cases m with
  | write v => exact ⟨_, rfl, next_eq_self h nofun nofun, rfl, rfl, ⟨_, rfl⟩, rfl, rfl, rfl, rfl, rfl, rfl⟩
  | openFrame =>
    have hidle := next_openFrame h
    exact ⟨_, beginTransaction_idle s hidle, by rw [hidle]; rfl, rfl, rfl, ⟨_, rfl⟩, rfl, rfl, rfl, rfl, rfl, rfl⟩
  | closeFrame =>
    have hactive := next_closeFrame h
    exact ⟨_, endTransaction_active s hactive, by rw [hactive]; rfl, rfl, rfl, ⟨_, rfl⟩, rfl, rfl, rfl, rfl, rfl, rfl⟩
  | startReceive => exact ⟨_, rfl, next_eq_self h nofun nofun, rfl, rfl, ⟨_, rfl⟩, rfl, rfl, rfl, rfl, rfl, rfl⟩
  | sample => exact ⟨_, rfl, next_eq_self h nofun nofun, rfl, rfl, ⟨_, rfl⟩, rfl, rfl, rfl, rfl, rfl, rfl⟩
  | endReceive dest =>
    cases dest <;> exact ⟨_, rfl, next_eq_self h nofun nofun, rfl, rfl, ⟨_, rfl⟩, rfl, rfl, rfl, rfl, rfl, rfl⟩
  | selectMode x => exact ⟨_, rfl, next_eq_self h nofun nofun, rfl, rfl, ⟨_, rfl⟩, rfl, rfl, rfl, rfl, rfl, rfl⟩
  | delay ms =>
    have hone : (delayPoint ms s).trace = .delay ms :: s.trace := by
      rw [delayPoint_trace, delayEvents_of_next h]
      rfl
    exact ⟨_, rfl, next_eq_self h nofun nofun, rfl, rfl, ⟨_, hone⟩, rfl, rfl, rfl, rfl, rfl, rfl⟩

end Sys2Proof.Machine
end

section
/-! The invariant of the block (`State.Inv`): at reset, over every event of a command in progress, over every whole
instruction, and over acceptance in the event view; and what it says of the pins and of the framing faults. -/

namespace Sys2Proof.Machine

/-! ### The first events of a command -/

theorem framing_take (op : HostOp) (s : State) (k : Nat) :
    framing .idle ((eventsOf Config.delays op s).take k) = some (framerAfter ((eventsOf Config.delays op s).take k)) := by
  have hall := framing_commandMicros Config.delays op s.addr s.len s.pbuf
  rw [← eventsOf, ← List.take_append_drop k (eventsOf Config.delays op s), framing_append] at hall
  obtain ⟨f, hf, -⟩ := Option.bind_eq_some_iff.mp hall
  rw [hf, framerAfter_of_framing hf]

theorem framerAfter_all (op : HostOp) (s : State) : framerAfter (eventsOf Config.delays op s) = .idle :=
  framerAfter_of_framing (framing_commandMicros Config.delays op s.addr s.len s.pbuf)

/-- Event `k` of a command may stand where the events before it have put the framer. -/
theorem next_getElem (op : HostOp) (s : State) {k : Nat} (hk : k < (eventsOf Config.delays op s).length) :
    (eventsOf Config.delays op s)[k].next (framerAfter ((eventsOf Config.delays op s).take k)) =
      some (framerAfter ((eventsOf Config.delays op s).take (k + 1))) := by
  rw [← framing_take, List.take_succ_eq_append_getElem hk, framing_concat, framing_take, Option.bind_some]

/-- `s` is where the first `k` events of the command have put it (the last part of `State.InProgress`). -/
def State.StandsAt (s : State) (op : HostOp) (k : Nat) : Prop :=
  s.framer = framerAfter ((eventsOf Config.delays op s).take k)
  ∧ ∃ v x, s.sig = signalsAfter v ((eventsOf Config.delays op s).take k)
    ∧ s.mode = modeAfterAll x ((eventsOf Config.delays op s).take k)
    ∧ (x = .bitBang → v = Signals.rest)
    ∧ (needsBitBang op = true → x = .bitBang)

theorem inProgress_iff (s : State) (op : HostOp) (k : Nat) :
    s.InProgress op k ↔ k < (eventsOf Config.delays op s).length ∧ s.StandsAt op k := Iff.rfl

/-- In Bit-Bang mode `SIG` shows the framer: it was at rest when the command was accepted in that mode, and `init`, which
alone reaches it from another, writes `SIG` before its mode write. -/
theorem State.StandsAt.shows {s : State} {op : HostOp} {k : Nat} (h : s.StandsAt op k) (hmode : s.mode = .bitBang) :
    s.framer.Shows s.sig := by
  obtain ⟨hframer, v, x, hsig, hm, hrest, hneeds⟩ := h
  rw [hframer, hsig]
  rw [hm] at hmode
  have hfrom : Framer.Shows (framerAfter ((eventsOf Config.delays op s).take k))
      (signalsAfter Signals.rest ((eventsOf Config.delays op s).take k)) :=
    Framer.Shows.framing (f := .idle) rfl (framing_take op s k)
  by_cases hx : x = .bitBang
  · rwa [hrest hx]
  · cases op with
    | init =>
      cases k with
      | zero => exact absurd hmode hx
      | succ k => exact hfrom
    | teardown =>
      cases k with
      | zero => exact absurd hmode hx
      | succ k =>
        have hone : (eventsOf Config.delays .teardown s).take (k + 1) = [.selectMode .memoryMapped] :=
          List.take_of_length_le (Nat.succ_le_succ k.zero_le)
        rw [hone] at hmode
        cases hmode
    | _ => exact absurd (hneeds rfl) hx

theorem State.Inv.shows {s : State} (hinv : s.Inv) (hmode : s.mode = .bitBang) : s.framer.Shows s.sig := by
  cases hs : s.seq with
  | idle =>
    rw [hinv.framerIdle hs]
    exact hinv.atRest hs hmode
  | running op k => exact ((inProgress_iff s op k).mp (hinv.inProgress op k hs)).2.shows hmode

/-- Settles O48: the framer shows on the pins, as CHIP_SELECT. -/
theorem framerMatchesChipSelect : Obligations.FramerMatchesChipSelect :=
  fun _ hinv hmode => (hinv.shows hmode).chipSelect

/-! ### One event of a command in progress -/

/-- The event step of a command in progress runs the next event of its list, which raises no fault. -/
theorem eventStep_running {op : HostOp} {k : Nat} {s : State} (hinv : s.Inv) (hs : s.seq = .running op k) :
    ∃ (hk : k < (eventsOf Config.delays op s).length) (t : State), (eventsOf Config.delays op s)[k].Does s t
      ∧ eventStep s = .next (advance op k (eventsOf Config.delays op s).length t) := by
  obtain ⟨hk, hframer, -⟩ := hinv.inProgress op k hs
  obtain ⟨t, hrun, hdoes⟩ := Micro.run_does (hframer ▸ next_getElem op s hk)
  refine ⟨hk, t, hdoes, ?_⟩
  rw [eventStep, eventStepWith]
  simp only [hs, List.getElem?_eq_getElem hk, hrun]

/-- Settles O51: the event emits its one event, and the position advances. -/
theorem oneEventPerStep : Obligations.OneEventPerStep := by
  intro op k s hinv hs
  obtain ⟨hk, t, hdoes, hstep⟩ := eventStep_running hinv hs
  obtain ⟨e, he⟩ := hdoes.emits
  obtain ⟨-, -, -, -, -, -, -, -, -, htrace, hseq⟩ := advance_frame op k (eventsOf Config.delays op s).length t
  refine ⟨_, e, hstep, htrace.trans he, fun hmore => ?_, fun hlast => ?_⟩
  · rw [hseq, if_pos hmore]
  · rw [hseq, if_neg (by omega)]

theorem signalsAfter_concat (v : Signals) (ms : List Micro) (m : Micro) :
    signalsAfter v (ms ++ [m]) = (m.signals).getD (signalsAfter v ms) :=
  List.foldl_concat ..

theorem modeAfterAll_concat (x : DeviceMode) (ms : List Micro) (m : Micro) :
    modeAfterAll x (ms ++ [m]) = (m.mode).getD (modeAfterAll x ms) :=
  List.foldl_concat ..

/-- An event moves the command one position further. -/
theorem State.StandsAt.event {s t : State} {op : HostOp} {k : Nat} (h : s.StandsAt op k)
    (hk : k < (eventsOf Config.delays op s).length) (hdoes : (eventsOf Config.delays op s)[k].Does s t) :
    t.StandsAt op (k + 1) := by
  obtain ⟨hframer, v, x, hsig, hmode, hrest, hneeds⟩ := h
  have hevents : eventsOf Config.delays op t = eventsOf Config.delays op s := by
    rw [eventsOf, eventsOf, hdoes.addr, hdoes.len, hdoes.pbuf]
  have htake := List.take_succ_eq_append_getElem hk
  rw [StandsAt, hevents]
  refine ⟨?_, v, x, ?_, ?_, hrest, hneeds⟩
  · have hnext := hdoes.framer
    rw [hframer, next_getElem op s hk] at hnext
    exact (Option.some.inj hnext).symm
  · rw [htake, signalsAfter_concat, ← hsig, hdoes.sig]
  · rw [htake, modeAfterAll_concat, ← hmode, hdoes.mode]

/-- Moving the position changes none of what `StandsAt` speaks of. -/
theorem State.StandsAt.advance {t : State} {op : HostOp} {k : Nat} (h : t.StandsAt op k) (op' : HostOp)
    (n count : Nat) : (advance op' n count t).StandsAt op k := by
  obtain ⟨hsig, hmode, hframer, hpbuf, haddr, hlen, -⟩ := advance_frame op' n count t
  rwa [StandsAt, eventsOf, hsig, hmode, hframer, hpbuf, haddr, hlen]

theorem State.StandsAt.framer_of_all {t : State} {op : HostOp} {k : Nat} (h : t.StandsAt op k)
    (hk : (eventsOf Config.delays op t).length ≤ k) : t.framer = .idle := by
  rw [h.1, List.take_of_length_le hk, framerAfter_all]

theorem eventStep_keeps_inv {op : HostOp} {k : Nat} {s t : State} (hinv : s.Inv) (hs : s.seq = .running op k)
    (h : eventStep s = .next t) : t.Inv ∧ t.frameSlot = s.frameSlot ∧ t.fcause = s.fcause := by
  obtain ⟨hk, u, hdoes, hstep⟩ := eventStep_running hinv hs
  obtain rfl := next_inj (hstep.symm.trans h)
  have hstands := ((inProgress_iff s op k).mp (hinv.inProgress op k hs)).2.event hk hdoes
  have hstands' := hstands.advance op k (eventsOf Config.delays op s).length
  obtain ⟨-, -, -, hpbuf, haddr, hlen, hfault, hfcause, hslot, -, hseq⟩ :=
    advance_frame op k (eventsOf Config.delays op s).length u
  generalize advance op k (eventsOf Config.delays op s).length u = t at *
  have hevents : eventsOf Config.delays op t = eventsOf Config.delays op s := by
    rw [eventsOf, eventsOf, haddr, hlen, hpbuf, hdoes.addr, hdoes.len, hdoes.pbuf]
  have hidle (hend : t.seq = .idle) : t.framer = .idle := by
    refine hstands'.framer_of_all (hevents ▸ Nat.not_lt.mp fun hmore => ?_)
    rw [hseq, if_pos hmore] at hend
    cases hend
  refine ⟨⟨?_, ?_, hidle, fun hend hm => ?_, fun op' k' hrun => ?_⟩, hslot.trans hdoes.frameSlot,
    hfcause.trans hdoes.fcause⟩
  · rw [hfault, hfcause, hdoes.fault, hdoes.fcause]
    exact hinv.faultHasCause
  · rw [hpbuf, hdoes.pbuf]
    exact hinv.payloadFits
  · have hshows := hstands'.shows hm
    rwa [hidle hend] at hshows
  · rw [hseq] at hrun
    split at hrun
    · rename_i hmore
      obtain ⟨rfl, rfl⟩ := Seq.running.inj hrun
      exact (inProgress_iff t op (k + 1)).mpr ⟨hevents ▸ hmore, hstands'⟩
    · cases hrun

/-! ### Whole instructions -/

theorem FaultCause.OfCheck.ne {c : FaultCause} (h : c.OfCheck) : c ≠ .noFault ∧ c ≠ .nest ∧ c ≠ .frame := by
  refine ⟨?_, ?_, ?_⟩ <;> rintro rfl <;> simp [OfCheck, code] at h

/-- A fault check that applies keeps the invariant of an idle state. -/
theorem raiseFault_keeps_inv {c : FaultCause} {s : State} (hc : c ≠ .noFault) (hs : s.seq = .idle) (hinv : s.Inv) :
    (raiseFault c s).Inv := by
  refine ⟨?_, hinv.payloadFits, fun _ => hinv.framerIdle hs, fun _ => hinv.atRest hs, nofun⟩
  rw [raiseFault_fault, raiseFault_fcause]
  refine iff_of_true rfl ?_
  split
  · rename_i hfault
    exact hinv.faultHasCause.mp hfault
  · exact hc

theorem Passes.keeps_inv {s t : State} (h : Passes s t) (hs : s.seq = .idle) (hinv : s.Inv) : t.Inv := by
  obtain ⟨hseq, hframer, hfault, hfcause, hpbuf, -⟩ := h.undisturbed
  refine ⟨?_, ?_, fun _ => ?_, fun _ => h.atRest (hinv.atRest hs), fun op k hr => ?_⟩
  · rw [hfault, hfcause]
    exact hinv.faultHasCause
  · rw [hpbuf]
    exact hinv.payloadFits
  · rw [hframer, hinv.framerIdle hs]
  · rw [hseq, hs] at hr
    cases hr

theorem exec_keeps_inv {i : Instr} {s t : State} (hinv : s.Inv) (h : exec i s = .next t) : t.Inv := by
  have hs := exec_next_idle h
  obtain ⟨c, hc, rfl⟩ | hpass := exec_ends (hinv.framerIdle hs) h
  · exact raiseFault_keeps_inv hc.ne.1 hs hinv
  · exact hpass.keeps_inv hs hinv

/-- `u` is `s` once the next code is taken from where it stood, with the payload that came with it. -/
structure State.Taken (s u : State) : Prop where
  same : u = { s with pbuf := u.pbuf, caller := u.caller, frameSlot := u.frameSlot }
  pbuf : s.pbuf.length ≤ Config.pageMax → u.pbuf.length ≤ Config.pageMax
  frameSlot : s.frameSlot = none → u.frameSlot = none

theorem supplyPayload_taken (r : Request) (rest : List Request) (s : State) :
    s.Taken (supplyPayload r { s with caller := rest }) := by
  rw [supplyPayload]
  split
  · exact ⟨rfl, fun _ => entries_length r, id⟩
  · exact ⟨rfl, id, id⟩

/-- The ways a step that is no reset can answer a next state: an event, nothing, or an instruction. -/
theorem step_cases {s t : State} (hr : s.resetIn = false) (h : step s = .next t) :
    (∃ op k, s.seq = .running op k ∧ eventStep s = .next t) ∨ t = s ∨
      (s.seq = .idle ∧ ∃ i u, s.Taken u ∧ exec i u = .next t) := by
  obtain hevent | ⟨-, rfl, -⟩ | ⟨hs, bytes, i, -, -, hrun⟩ | ⟨hs, -, r, rest, i, -, -, hrun⟩ := step_next hr h
  · exact .inl hevent
  · exact .inr (.inl rfl)
  · exact .inr (.inr ⟨hs, i, { s with frameSlot := none }, ⟨rfl, id, fun _ => rfl⟩, hrun⟩)
  · exact .inr (.inr ⟨hs, i, _, supplyPayload_taken r rest s, hrun⟩)

theorem State.Inv.taken {s u : State} (hinv : s.Inv) (hs : s.seq = .idle) (hu : s.Taken u) : u.Inv := by
  obtain ⟨hsame, hpbuf, -⟩ := hu
  refine ⟨?_, hpbuf hinv.payloadFits, ?_, ?_, fun op k hr => ?_⟩
  · rw [hsame]
    exact hinv.faultHasCause
  · rw [hsame]
    exact hinv.framerIdle
  · rw [hsame]
    exact hinv.atRest
  · rw [hsame] at hr
    cases hs.symm.trans hr

/-! ### Reset -/

theorem step_reset {s : State} (h : s.resetIn = true) : step s = .next (applyReset s) := by
  simp [step, todo, h]

/-- After a reset control is idle, MODE is no Bit-Bang mode and no fault is recorded. -/
theorem applyReset_inv (s : State) : (applyReset s).Inv :=
  ⟨⟨nofun, fun h => absurd rfl h⟩, Nat.zero_le _, fun _ => rfl, nofun, nofun⟩

/-- Settles O45: power-on meets the invariant as every later reset does. -/
theorem invariantAtReset : Obligations.InvariantAtReset :=
  ⟨⟨⟨nofun, fun h => absurd rfl h⟩, Nat.zero_le _, fun _ => rfl, nofun, nofun⟩, applyReset_inv⟩

/-! ### Every step -/

/-- Settles O46: a reset leaves an initial state, an event puts the command one position further, and a whole instruction
passes from idle to idle. -/
theorem invariantKept : Obligations.InvariantKept := by
  intro s t hinv h
  cases hr : s.resetIn with
  | true =>
    obtain rfl := next_inj ((step_reset hr).symm.trans h)
    exact applyReset_inv s
  | false =>
    obtain ⟨op, k, hs, hevent⟩ | rfl | ⟨hs, i, u, hu, hrun⟩ := step_cases hr h
    · exact (eventStep_keeps_inv hinv hs hevent).1
    · exact hinv
    · exact exec_keeps_inv (hinv.taken hs hu) hrun

/-- Settles O49: a command's own events raise no fault, and the checks of an instruction record neither of the two. -/
theorem framingFaultsUnreachable : Obligations.FramingFaultsUnreachable := by
  intro s t hinv hslot h
  cases hr : s.resetIn with
  | true =>
    obtain rfl := next_inj ((step_reset hr).symm.trans h)
    exact ⟨hslot, fun _ => nofun, fun _ => nofun⟩
  | false =>
    obtain ⟨op, k, hs, hevent⟩ | rfl | ⟨hs, i, u, hu, hrun⟩ := step_cases hr h
    · obtain ⟨-, hframe, hcause⟩ := eventStep_keeps_inv hinv hs hevent
      rw [hframe, hcause]
      exact ⟨hslot, id, id⟩
    · exact ⟨hslot, id, id⟩
    · have hcause : u.fcause = s.fcause := by rw [hu.same]
      obtain ⟨c, hc, rfl⟩ | hpass := exec_ends ((hinv.taken hs hu).framerIdle (exec_next_idle hrun)) hrun
      · obtain ⟨-, hnest, hframe⟩ := hc.ne
        rw [raiseFault_fcause, hcause]
        refine ⟨hu.frameSlot hslot, fun hn => ?_, fun hn => ?_⟩ <;> split <;> assumption
      · rw [hpass.undisturbed.frameSlot, hpass.undisturbed.fcause, hcause]
        exact ⟨hu.frameSlot hslot, id, id⟩

/-! ### Acceptance in the event view -/

theorem commandMicros_length_pos (d : Delays) (op : HostOp) (addr : Address) (len : Length) (pbuf : List Byte) :
    0 < (commandMicros d op addr len pbuf).length := by
  cases op <;> simp [commandMicros, enableThenMicros, frameMicros]

/-- Settles O47: a command is accepted before its first event, in the values of `SIG` and `MODE` it finds. -/
theorem invariantKeptByPresent : Obligations.InvariantKeptByPresent := by
  intro op len addr s t hinv h
  obtain ⟨hs, ht⟩ := whenIdle_next _ _ _ h
  cases ha : admissionFault op len s with
  | some c =>
    rw [ht, ha]
    exact raiseFault_keeps_inv (admissionFault_ofCheck ha).ne.1 hs hinv
  | none =>
    have hload : s.SameControl (loadOperands op len addr s) := loadOperands_sameControl op len addr s
    have hneeds (hop : needsBitBang op = true) : s.mode = .bitBang := by
      by_contra hmode
      rw [admissionFault_mode op len s hop hmode] at ha
      cases ha
    rw [ht, ha, hload]
    refine ⟨hinv.faultHasCause, hinv.payloadFits, nofun, nofun, fun op' k hseq => ?_⟩
    obtain ⟨rfl, rfl⟩ := Seq.running.inj hseq
    exact ⟨commandMicros_length_pos .., hinv.framerIdle hs, s.sig, s.mode, rfl, rfl, hinv.atRest hs, hneeds⟩

end Sys2Proof.Machine
end

section
/-! The line discipline of spec/70_reset_and_hazards.md section 3, composed from the pieces of a frame, and the values
written to `SIG` (spec/40_signal_driver.md R93). -/

namespace Sys2Proof.Machine

/-! ### The values written -/

/-- `t` has emitted used values only since `s`, and its `SIG` is the last of them. -/
def State.WroteUsed (s t : State) : Prop :=
  ∃ es, s.Emitted t es ∧ t.sig = lastWritten s.sig es ∧ ∀ v, Event.write v ∈ es → v ∈ Signals.used

theorem State.WroteUsed.emit {s t u : State} {es : List Event} (h : s.WroteUsed t) (htrace : t.Emitted u es)
    (hsig : u.sig = lastWritten t.sig es) (hused : ∀ v, Event.write v ∈ es → v ∈ Signals.used) : s.WroteUsed u := by
  obtain ⟨es0, htrace0, hsig0, hused0⟩ := h
  refine ⟨es0 ++ es, Emitted.trans htrace0 htrace, ?_, fun v hv => ?_⟩
  · rw [lastWritten_append, ← hsig0, hsig]
  · exact (List.mem_append.mp hv).elim (hused0 v) (hused v)

theorem mem_delayEvents {e : Event} {ms : Nat} (h : e ∈ delayEvents ms) : e = .delay ms := by
  rw [delayEvents] at h
  split at h
  · cases h
  · exact List.mem_singleton.mp h

theorem lastWritten_delayEvents (v : Signals) (ms : Nat) : lastWritten v (delayEvents ms) = v := by
  rw [delayEvents]
  split <;> rfl

theorem delayPoint_emits (ms : Nat) (s : State) : s.Emitted (delayPoint ms s) (delayEvents ms) := by
  rw [State.Emitted, delayPoint_trace, delayEvents]
  split <;> rfl

theorem wroteUsed_preserved (s : State) : Preserved s.WroteUsed True where
  write h c m cs e hu := h.emit (es := [evW c m cs e]) rfl rfl fun v hv => by
    obtain rfl := Event.write.inj (List.mem_singleton.mp hv)
    exact hu
  setFramer h _ := h
  clearAcc h := h
  sample {t} h := h.emit (es := [.read (misoLevel t)]) rfl rfl fun v hv => by cases List.mem_singleton.mp hv
  selectMode _ _ h m := h.emit (es := [.selectMode m]) rfl rfl fun v hv => by cases List.mem_singleton.mp hv
  delay {t} h ms := h.emit (delayPoint_emits ms t) (lastWritten_delayEvents t.sig ms).symm fun v hv => by
    cases mem_delayEvents hv
  loadAddr h _ := h
  loadLen h _ := h
  response h _ _ := h
  busy h _ := h
  success h := h
  raise h _ := h

/-- Settles O43: every signal write of a primitive operation is one of the seven values, and it is `SIG` from then on. -/
theorem onlySevenSignalValues : Obligations.OnlySevenSignalValues := by
  intro i s t es h hemit
  have hstart : s.WroteUsed s := ⟨[], rfl, rfl, nofun⟩
  obtain ⟨es', hemit', hsig, hused⟩ := (wroteUsed_preserved s).exec hstart (.inl trivial) h
  obtain rfl := Emitted.unique hemit hemit'
  have htable : ∀ v ∈ Signals.used, (v.chipSelect = true → v.clock = false ∧ v.mosi = false ∧ v.misoEnable = false)
      ∧ (v.mosi = true → v.misoEnable = false) := by decide
  exact ⟨hsig, fun v hv => ⟨hused v hv, htable v (hused v hv)⟩⟩

/-! ### The discipline, piece by piece -/

/-- The value of `SIG` an observer knows after the events of a list. -/
def knownAfter (last : Option Signals) (es : List Event) : Option Signals :=
  match es with
  | [] => last
  | .write v :: rest => knownAfter (some v) rest
  | .read _ :: rest => knownAfter last rest
  | .selectMode _ :: rest => knownAfter last rest
  | .delay _ :: rest => knownAfter last rest

/-- From a known value that meets `P` the events are disciplined, and they leave a known value that meets `Q`. -/
def Leads (P Q : Option Signals → Prop) (es : List Event) : Prop :=
  ∀ last, P last → disciplined last es = true ∧ Q (knownAfter last es)

theorem disciplined_append (last : Option Signals) (a b : List Event) :
    disciplined last (a ++ b) = (disciplined last a && disciplined (knownAfter last a) b) := by
  induction a generalizing last with
  | nil => rfl
  | cons e rest ih => cases e <;> simp only [List.cons_append, disciplined, knownAfter, ih, Bool.and_assoc]

theorem knownAfter_append (last : Option Signals) (a b : List Event) :
    knownAfter last (a ++ b) = knownAfter (knownAfter last a) b := by
  induction a generalizing last with
  | nil => rfl
  | cons e rest ih => cases e <;> exact ih _

theorem Leads.append {P Q R : Option Signals → Prop} {a b : List Event} (ha : Leads P Q a) (hb : Leads Q R b) :
    Leads P R (a ++ b) := by
  intro last hP
  obtain ⟨hda, hQ⟩ := ha last hP
  obtain ⟨hdb, hR⟩ := hb _ hQ
  rw [disciplined_append, knownAfter_append, hda, hdb]
  exact ⟨rfl, hR⟩

theorem Leads.mono {P P' Q Q' : Option Signals → Prop} {es : List Event} (h : Leads P Q es)
    (hP : ∀ last, P' last → P last) (hQ : ∀ last, Q last → Q' last) : Leads P' Q' es :=
  fun last hl => ⟨(h last (hP last hl)).1, hQ _ (h last (hP last hl)).2⟩

theorem leads_nil (P : Option Signals → Prop) : Leads P P [] := fun _ h => ⟨rfl, h⟩

theorem Leads.flatMap {α : Type} {P : Option Signals → Prop} {piece : α → List Event} (h : ∀ x, Leads P P (piece x))
    (l : List α) : Leads P P (l.flatMap piece) := by
  induction l with
  | nil => exact leads_nil P
  | cons x rest ih => exact (h x).append ih

/-- `SIG` is known to be at rest. -/
def AtRest (last : Option Signals) : Prop := last = some Signals.rest

/-- `SIG` is not known, or at rest: what an idle block may start from. -/
def MayRest (last : Option Signals) : Prop := last = none ∨ AtRest last

/-- Inside a transaction with CLOCK low. -/
def Low (last : Option Signals) : Prop := ∃ mosi misoEnable, last = some ⟨false, mosi, false, misoEnable⟩

/-- Inside a transaction with CLOCK low and MISO_ENABLE high, between two samples. -/
def Listening (last : Option Signals) : Prop := last = some ⟨false, false, false, true⟩

theorem AtRest.mayRest {last : Option Signals} (h : AtRest last) : MayRest last := .inr h

theorem Listening.low {last : Option Signals} (h : Listening last) : Low last := ⟨false, true, h⟩

theorem leads_open : Leads MayRest Low [evW false false false false] := by
  rintro last (rfl | rfl) <;> exact ⟨by decide, false, false, rfl⟩

theorem leads_bitEvents (b : Bool) : Leads Low Low (bitEvents b) := by
  rintro last ⟨mosi, misoEnable, rfl⟩
  refine ⟨?_, b, false, rfl⟩
  revert b mosi misoEnable
  decide

theorem leads_byteEvents (v : Byte) : Leads Low Low (byteEvents v) := Leads.flatMap leads_bitEvents _

theorem leads_sampleEvents (b : Bool) : Leads Listening Listening (sampleEvents b) := by
  rintro last rfl
  cases b <;> exact ⟨by decide, rfl⟩

theorem leads_receiveEvents (bits : List Bool) : Leads Low Low (receiveEvents bits) := by
  have hsetup : Leads Low Listening [evW false false false true] := by
    rintro last ⟨mosi, misoEnable, rfl⟩
    refine ⟨?_, rfl⟩
    revert mosi misoEnable
    decide
  exact (hsetup.append (Leads.flatMap leads_sampleEvents bits)).mono (fun _ => id) fun _ => Listening.low

theorem leads_close : Leads Low AtRest [evW false false true false] := by
  rintro last ⟨mosi, misoEnable, rfl⟩
  refine ⟨?_, rfl⟩
  revert mosi misoEnable
  decide

/-- A frame is disciplined, and leaves `SIG` at rest. -/
theorem leads_frameEvents (bytes : List Byte) (count : Nat) (bits : List Bool) :
    Leads MayRest AtRest (frameEvents bytes count bits) :=
  ((leads_open.append (Leads.flatMap leads_byteEvents bytes)).append
    (Leads.flatMap (fun k => leads_receiveEvents (sampleByte bits k)) _)).append leads_close

theorem leads_connect : Leads MayRest AtRest [evW false false true false, .selectMode .bitBang] := by
  rintro last (rfl | rfl) <;> exact ⟨by decide, rfl⟩

theorem leads_delayEvents (ms : Nat) : Leads AtRest AtRest (delayEvents ms) := by
  rintro last rfl
  rw [delayEvents]
  split <;> exact ⟨rfl, rfl⟩

/-! ### Whole instructions -/

/-- What an observer knows between the operations of an instruction: in Bit-Bang mode, that `SIG` is at rest. -/
def Known (mode : DeviceMode) (last : Option Signals) : Prop := MayRest last ∧ (mode = .bitBang → AtRest last)

theorem Passes.disciplined {s t : State} (h : Passes s t) (hs : Known s.mode s.knownSignals) :
    ∃ es, s.Emitted t es ∧ Leads (· = s.knownSignals) (Known t.mode) es := by
  have hstep {t u : State} {P : Option Signals → Prop} {es : List Event}
      (ih : ∃ es, s.Emitted t es ∧ Leads (· = s.knownSignals) (Known t.mode) es) (hemit : t.Emitted u es)
      (hP : ∀ last, Known t.mode last → P last) (hes : Leads P (Known u.mode) es) :
      ∃ es, s.Emitted u es ∧ Leads (· = s.knownSignals) (Known u.mode) es := by
    obtain ⟨es0, hemit0, hlead0⟩ := ih
    exact ⟨_, Emitted.trans hemit0 hemit, (hlead0.mono (fun _ => id) hP).append hes⟩
  have hrest {mode : DeviceMode} {P : Option Signals → Prop} {es : List Event} (h : Leads P AtRest es) :
      Leads P (Known mode) es := h.mono (fun _ => id) fun _ hl => ⟨hl.mayRest, fun _ => hl⟩
  induction h with
  | accepted =>
    refine ⟨[], rfl, ?_⟩
    rintro last rfl
    exact ⟨rfl, hs⟩
  | store _ hu ih => rw [hu]; exact ih
  | frame bytes count bits _ ih =>
    exact hstep ih (emitted_afterFrame ..) (fun _ h => h.1) (hrest (leads_frameEvents bytes count bits))
  | connect _ ih =>
    exact hstep ih (es := [evW false false true false, .selectMode .bitBang]) rfl (fun _ h => h.1) (hrest leads_connect)
  | delay ms _ hmode ih => exact hstep ih (delayPoint_emits ..) (fun _ h => h.2 hmode) (hrest (leads_delayEvents ms))
  | disconnect _ ih =>
    refine hstep ih (es := [.selectMode .memoryMapped]) rfl (fun _ h => h.1) fun last hl => ⟨?_, hl, nofun⟩
    rfl

theorem State.Inv.known {s : State} (hinv : s.Inv) (hs : s.seq = .idle) : Known s.mode s.knownSignals := by
  have hrest := hinv.atRest hs
  rw [State.knownSignals]
  cases hmode : s.mode with
  | bitBang => exact ⟨.inr (congrArg some (hrest hmode)), fun _ => congrArg some (hrest hmode)⟩
  | memoryMapped => exact ⟨.inl rfl, nofun⟩
  | unknown => exact ⟨.inl rfl, nofun⟩

/-- Settles O44: from rest an instruction is a sequence of disciplined pieces, each of which the next may follow. -/
theorem lineDiscipline : Obligations.LineDiscipline := by
  intro i s t es hinv h hemit
  have hs := exec_next_idle h
  obtain ⟨c, -, rfl⟩ | hpass := exec_ends (hinv.framerIdle hs) h
  · obtain rfl : es = [] := Emitted.unique hemit rfl
    rfl
  · obtain ⟨es', hemit', hlead⟩ := hpass.disciplined (hinv.known hs)
    obtain rfl := Emitted.unique hemit hemit'
    exact (hlead _ rfl).1

end Sys2Proof.Machine
end

section
/-! Faults (spec/60_exceptions.md): the checks and their order, what fault entry writes, that a recorded fault stays and
steers nothing; and that the levels received steer nothing either. -/

namespace Sys2Proof.Machine

/-! ### Fault entry (R165) -/

theorem raiseFault_idle (c : FaultCause) {s : State} (hs : s.seq = .idle) :
    raiseFault c s = { s with fault := true, fcause := if s.fault then s.fcause else c } := by
  rw [raiseFault, hs]

/-- Settles O36: fault entry records the first cause and no other. -/
theorem faultEntry : Obligations.FaultEntry :=
  fun c s hidle => ⟨fun h => raiseFault_good c s h hidle.seq, fun h => raiseFault_again c s h hidle.seq⟩

/-! ### The checks (R160, R161, R163, R167) -/

theorem exec_reservedB {s : State} (len : Length) (addr : Address) (hs : s.seq = .idle) :
    exec (.reservedB len addr) s = .next (raiseFault (.reservedOp 0xB#4) s) :=
  whenIdle_idle s _ hs

theorem exec_reservedCF {s : State} (low : BitVec 2) (len : Length) (addr : Address) (hs : s.seq = .idle) :
    exec (.reservedCF low len addr) s = .next (raiseFault (.reservedOp (0b11#2 ++ low)) s) :=
  whenIdle_idle s _ hs

/-- A command that needs Bit-Bang mode is F_MODE outside it. -/
theorem exec_outsideBitBang {op : HostOp} (len : Length) (addr : Address) {s : State} (hi : op ≠ .init)
    (ht : op ≠ .teardown) (hs : s.seq = .idle) (hm : s.mode ≠ .bitBang) :
    exec (op.instr len addr) s = .next (raiseFault (.mode op.code) s) := by
  rw [exec_instr]
  exact hostCommand_outsideBitBang ((needsBitBang_iff op).mpr ⟨hi, ht⟩) hs hm

/-- Settles O33: the op fields from 0xB on are those of the two reserved rows, whose meaning is the fault. -/
theorem reservedOpFaults : Obligations.ReservedOpFaults := by
  intro w s hop hs
  refine ⟨?_, rfl, rfl⟩
  rw [← raiseFault_idle _ hs, ← hostWord_fields w, opField_hostWord]
  rcases opField_cases (opField w) with ⟨op, h⟩ | h | ⟨low, h⟩
  · rw [h] at hop
    cases op <;> exact absurd hop (by decide)
  · rw [h, decodeHost_reservedB]
    exact exec_reservedB _ _ hs
  · rw [h, decodeHost_reservedCF]
    exact exec_reservedCF _ _ _ hs

/-- Settles O37: a reserved code is its own instruction, checked for nothing else, and the mode check precedes the
operand check. -/
theorem faultPriority : Obligations.FaultPriority :=
  fun len addr low _ hs hm => ⟨exec_reservedB len addr hs, exec_reservedCF low len addr hs,
    fun _ => exec_outsideBitBang (op := .beginWrite) len addr nofun nofun hs hm⟩

theorem pbufEntry_eq_none_iff (s : State) (i : Nat) : s.pbufEntry i = none ↔ s.pbuf.length ≤ i :=
  List.getElem?_eq_none_iff

/-- Settles O35: the entries supplied stand at the start of the buffer, so the smallest missing index is their
number. -/
theorem operandFaults : Obligations.OperandFaults := by
  rintro len addr s hs hm ⟨i, hi, hmissing⟩
  have hshort : s.pbuf.length < min len.toNat 256 := ((pbufEntry_eq_none_iff s i).mp hmissing).trans_lt hi
  refine ⟨s.pbuf.length, hshort, (pbufEntry_eq_none_iff s _).mpr le_rfl, fun j hj hnone => ?_, ?_, rfl, rfl⟩
  · exact absurd ((pbufEntry_eq_none_iff s j).mp hnone) (Nat.not_le.mpr hj)
  · rw [← raiseFault_idle _ hs]
    exact hostCommand_beginWrite_short hs hm (Nat.not_le.mpr hshort)

theorem instr_ne_init {op : HostOp} (h : op ≠ .init) (len l : Length) (addr a : Address) :
    op.instr len addr ≠ .init l a := by
  cases op with
  | init => exact absurd rfl h
  | _ => nofun

theorem instr_ne_teardown {op : HostOp} (h : op ≠ .teardown) (len l : Length) (addr a : Address) :
    op.instr len addr ≠ .teardown l a := by
  cases op with
  | teardown => exact absurd rfl h
  | _ => nofun

/-- Inside a transaction the two Reset/Wake frames are F_NEST at once (R162). -/
theorem resetWake_active (midMs : Nat) {s : State} (h : s.framer = .active) :
    resetWake midMs s = .raised (raiseFault .nest s) := by
  rw [resetWake, sendFrame_active _ _ _ s h, andThen_raised]

/-- `init` records no F_MODE: it passes every check, and only a transaction in progress can stop it. -/
theorem initCommand_fcause (s : State) :
    (initCommand s).state.fcause = s.fcause ∨ (initCommand s).state.fcause = .nest := by
  cases hf : s.framer with
  | idle => exact .inl (procedure_passes .init hf).undisturbed.fcause
  | active =>
    have hactive : (delayPoint Config.delays.preMs (selectMode .bitBang
        (writeSignals Config.initClock false true false s))).framer = .active := hf
    have hrun : initCommand s = .raised (raiseFault .nest (delayPoint Config.delays.preMs (selectMode .bitBang
        (writeSignals Config.initClock false true false s)))) := by
      rw [initCommand, initWith, resetWake_active _ hactive, andThen_raised]
    rw [hrun, state_raised, raiseFault_fcause]
    split
    · exact .inl rfl
    · exact .inr rfl

/-- Settles O34: the nine commands stop at the mode check outside Bit-Bang mode and keep the mode in it; `init` and
`teardown` have no such check. -/
theorem modeFaults : Obligations.ModeFaults := by
  refine ⟨fun op len addr s hi ht hs hm => ?_, fun len addr s t c h hc => ?_, fun op len addr s t hi ht hm h => ?_,
    fun op => ⟨rfl, rfl⟩⟩
  · rw [← raiseFault_idle _ hs]
    exact exec_outsideBitBang len addr hi ht hs hm
  · rcases h with h | h
    · have hrun := hostCommand_runs .init len addr initCommand s (exec_next_idle h) rfl
      obtain rfl := next_inj (hrun.symm.trans h)
      rcases initCommand_fcause s with hkept | hnest
      · exact hkept.symm.trans hc
      · cases hnest.symm.trans hc
    · have hrun := hostCommand_runs .teardown len addr teardown s (exec_next_idle h) rfl
      obtain rfl := next_inj (hrun.symm.trans h)
      exact hc
  · exact (mode_preserved .bitBang).exec hm
      (.inr ⟨fun l a => instr_ne_init hi len l addr a, fun l a => instr_ne_teardown ht len l addr a⟩) h

/-- Settles O40: no instruction is accepted while the sequencer is running. -/
theorem commandInProgressStops : Obligations.CommandInProgressStops := fun i _ _ _ h => exec_running i h

/-- Settles O7: neither the checks, nor the loads, nor the procedures of these commands read the fields. -/
theorem unusedFieldsIgnored : Obligations.UnusedFieldsIgnored := by
  intro len len' addr addr' s
  refine ⟨?_, ?_, ?_, ?_, ?_, ?_, ?_, ?_, ?_, ?_⟩ <;> rfl

/-! ### Inside a transaction (R162) -/

/-- Settles O32: each of them begins with a frame, which begins with `beginTransaction`. -/
theorem nestedTransactionFaults : Obligations.NestedTransactionFaults := by
  intro s h nested
  have hframe (bytes : List Byte) (count : Nat) : frame bytes count s = .raised nested := frame_active bytes count s h
  have hthen {α : Type} (f : FrameName) (addr : Address) (payload : List Byte) (g : List Byte → State → Result α) :
      (sendFrame f addr payload s).andThen g = .raised nested := congrArg (Result.andThen · g) (hframe ..)
  have henable (f : FrameName) (payload : List Byte) : enableThen f payload s = .raised nested := by
    rw [enableThen, writeEnable, hthen, andThen_raised]
  refine ⟨hframe, hthen .., hthen .., fun _ => hthen .., ?_, hthen .., hthen .., henable .., henable .., henable ..,
    henable .., hthen .., hthen ..⟩
  rw [isBusy, readStatus, hthen, andThen_raised]

/-! ### A recorded fault stays and steers nothing (R166) -/

theorem faultRecord_preserved (c : FaultCause) : Preserved (fun s => s.fault = true ∧ s.fcause = c) True where
  write h _ _ _ _ _ := h
  setFramer h _ := h
  clearAcc h := h
  sample h := h
  selectMode _ _ h _ := h
  delay h _ := h
  loadAddr h _ := h
  loadLen h _ := h
  response h _ _ := h
  busy h _ := h
  success h := h
  raise h c' := ⟨rfl, by rw [raiseFault_fcause, h.1, if_pos rfl, h.2]⟩

/-- No event of a command clears the fault record, whether it raises a fault or not. -/
theorem Micro.run_faultRecord (m : Micro) {s : State} (h : s.fault = true) :
    (m.run s).state.fault = true ∧ (m.run s).state.fcause = s.fcause := by
  have hraise (c : FaultCause) : (raiseFault c s).fault = true ∧ (raiseFault c s).fcause = s.fcause :=
    (faultRecord_preserved s.fcause).raise ⟨h, rfl⟩ c
  cases m with
  | openFrame =>
    cases hf : s.framer with
    | idle => rw [run, beginTransaction_idle s hf]; exact ⟨h, rfl⟩
    | active => rw [run, beginTransaction_active s hf]; exact hraise _
  | closeFrame =>
    cases hf : s.framer with
    | idle => rw [run, endTransaction_idle s hf]; exact hraise _
    | active => rw [run, endTransaction_active s hf]; exact ⟨h, rfl⟩
  | endReceive dest => cases dest <;> exact ⟨h, rfl⟩
  | _ => exact ⟨h, rfl⟩

/-- Settles O38: neither an event nor an instruction clears the record. -/
theorem faultIsSticky : Obligations.FaultIsSticky := by
  intro s t hr hfault h
  obtain ⟨op, k, hs, hevent⟩ | rfl | ⟨-, i, u, hu, hrun⟩ := step_cases hr h
  · obtain ⟨-, rfl⟩ | ⟨op, k, m, -, -, ⟨s1, hrun, rfl⟩ | hrun⟩ := eventStepWith_next _ _ _ hevent
    · exact ⟨hfault, rfl⟩
    · obtain ⟨-, -, -, -, -, -, afault, afcause, -⟩ := advance_frame op k (eventsOf Config.delays op s).length s1
      have hrecord := m.run_faultRecord hfault
      rw [hrun, state_done] at hrecord
      rwa [afault, afcause]
    · have hrecord := m.run_faultRecord hfault
      rwa [hrun] at hrecord
  · exact ⟨hfault, rfl⟩
  · have hrecord : u.fault = true ∧ u.fcause = s.fcause := by
      rw [hu.same]
      exact ⟨hfault, rfl⟩
    exact (faultRecord_preserved s.fcause).exec hrecord (.inl trivial) hrun

/-- No primitive operation reads the fault record but fault entry, which keeps one that is there. -/
theorem faultRecord_kept (c : FaultCause) :
    Kept (fun s1 s2 => s2 = { s1 with fault := true, fcause := c }) Eq True where
  seq h := by rw [h]
  mode h := by rw [h]
  framer h := by rw [h]
  pbuf h := by rw [h]
  addr h := by rw [h]
  len h := by rw [h]
  acc h := by rw [h]
  zero := rfl
  write h _ _ _ _ _ := by rw [h]; rfl
  setFramer h _ := by rw [h]
  clearAcc h := by rw [h]
  sample h := by rw [h]; rfl
  selectMode _ _ _ h _ := by rw [h]; rfl
  delay h _ := by rw [h]; rfl
  loadAddr h _ := by rw [h]; rfl
  loadLen h _ := by rw [h]; rfl
  response h k q1 q2 hq := by
    rw [List.forall₂_eq_eq_eq] at hq
    rw [h, hq]
    rfl
  busy h b1 b2 hb := by rw [h, hb]; rfl
  success h := by rw [h]; rfl
  raise h _ := by rw [h]; rfl

/-- Settles O39: the two runs differ in the record alone, whatever the instruction does. -/
theorem faultedMachineStillRuns : Obligations.FaultedMachineStillRuns := by
  intro i c s t _ _ h
  have hrel := (faultRecord_kept c).exec (s1 := s) rfl i (.inl trivial)
  rw [h] at hrel
  cases h2 : exec i { s with fault := true, fcause := c } with
  | next u =>
    rw [h2] at hrel
    exact congrArg Host.Outcome.next hrel
  | fault r => rw [h2] at hrel; exact hrel.elim
  | refused r => rw [h2] at hrel; exact hrel.elim

/-! ### The levels received steer nothing (42_transaction_framing.md R115, 43_command_protocol.md R133) -/

/-- A state without what the levels received decide. -/
def State.withoutLevels (rbuf : Vector (Option Byte) 8) (s : State) : State :=
  { s with acc := 0, rbuf := rbuf, busy := none, misoIn := [], trace := [] }

/-- Two states alike but for the levels received. -/
def AlikeButLevels (rbuf : Vector (Option Byte) 8) (s1 s2 : State) : Prop :=
  s1.trace.map Event.withoutLevel = s2.trace.map Event.withoutLevel ∧ s1.withoutLevels rbuf = s2.withoutLevels rbuf

theorem AlikeButLevels.same {rbuf : Vector (Option Byte) 8} {s1 s2 : State} {α : Type} (h : AlikeButLevels rbuf s1 s2)
    (f : State → α) : f (s1.withoutLevels rbuf) = f (s2.withoutLevels rbuf) := congrArg f h.2

/-- The same update of both states, with the same events. -/
theorem AlikeButLevels.update {rbuf : Vector (Option Byte) 8} {s1 s2 t1 t2 : State} (h : AlikeButLevels rbuf s1 s2)
    (f : State → State) (es1 es2 : List Event)
    (hes : es1.map Event.withoutLevel = es2.map Event.withoutLevel := by rfl)
    (htrace1 : t1.trace = es1 ++ s1.trace := by rfl) (htrace2 : t2.trace = es2 ++ s2.trace := by rfl)
    (h1 : t1.withoutLevels rbuf = f (s1.withoutLevels rbuf) := by rfl)
    (h2 : t2.withoutLevels rbuf = f (s2.withoutLevels rbuf) := by rfl) : AlikeButLevels rbuf t1 t2 :=
  ⟨by rw [htrace1, htrace2, List.map_append, List.map_append, hes, h.1], by rw [h1, h2, h.2]⟩

theorem alikeButLevels_kept (rbuf : Vector (Option Byte) 8) : Kept (AlikeButLevels rbuf) (fun _ _ => True) True where
  seq h := h.same State.seq
  mode h := h.same State.mode
  framer h := h.same State.framer
  pbuf h := h.same State.pbuf
  addr h := h.same State.addr
  len h := h.same State.len
  acc _ := trivial
  zero := trivial
  write h c m cs e _ := h.update (fun s => { s with sig := ⟨c, m, cs, e⟩ }) [evW c m cs e] [evW c m cs e]
  setFramer h f := h.update (fun s => { s with framer := f }) [] []
  clearAcc h := h.update id [] []
  sample {s1 s2} h := h.update id [.read (misoLevel s1)] [.read (misoLevel s2)]
  selectMode _ _ _ h m := h.update (fun s => { s with mode := modeAfter m }) [.selectMode m] [.selectMode m]
  delay h ms := h.update id (delayEvents ms) (delayEvents ms)
  loadAddr h a := h.update (loadAddr a) [] []
  loadLen h n := h.update (loadLen n) [] []
  response h _ _ _ _ := h.update id [] []
  busy h _ _ _ := h.update id [] []
  success h := h.update storeSuccess [] []
  raise h c := h.update (raiseFault c) [] []

/-- Settles O42: whatever levels they draw, two runs make the same updates with the same events. -/
theorem receivedLevelsDoNotSteer : Obligations.ReceivedLevelsDoNotSteer := by
  intro i m1 m2 s t1 t2 h1 h2
  have hstart : AlikeButLevels s.rbuf { s with misoIn := m1 } { s with misoIn := m2 } := ⟨rfl, rfl⟩
  have hrel := (alikeButLevels_kept s.rbuf).exec hstart i (.inl trivial)
  rw [h1, h2] at hrel
  exact hrel

end Sys2Proof.Machine
end

section
/-! The Signal Driver, the pins and the registers (10_state.md section 1, 40_signal_driver.md), and the two byte operations
with the integer laws of the serializer (41_bit_transport.md). -/

namespace Sys2Proof.Machine

/-! ### The data-in read, the pins, the register accesses -/

theorem misoLevel_nil {s : State} (h : s.misoIn = []) : misoLevel s = Config.misoLevel s.trace := by
  rw [misoLevel, h]

/-- Settles O9: the level is the head of the environment's list, or the free value where there is none. -/
theorem dataInReadIsADraw : Obligations.DataInReadIsADraw := by
  intro s
  refine ⟨fun b bs h => ?_, fun h => ?_⟩
  · rw [readMiso, afterRead, misoLevel_eq_head s b bs h, h, List.tail_cons]
  · rw [readMiso, afterRead, misoLevel_nil h, h, List.tail_nil]

theorem pins_outsideBitBang {s : State} (h : s.mode ≠ .bitBang) : s.pins = ⟨none, none, none, none, none⟩ := by
  rw [State.pins]
  split
  · exact absurd ‹_› h
  · rfl
  · rfl

/-- Settles O10: the pins are the fields of `SIG` in Bit-Bang mode alone, and a mode write keeps `SIG`. -/
theorem pinsFollowSignals : Obligations.PinsFollowSignals :=
  fun s => ⟨pins_of_bitBang, pins_outsideBitBang, fun _ _ _ _ => rfl, pins_of_bitBang (s := selectMode .bitBang s) rfl⟩

/-- Settles O11: the sixteen values of the four lines. -/
theorem packedSignalLayout : Obligations.PackedSignalLayout := by
  rintro ⟨clock, mosi, chipSelect, misoEnable⟩
  revert clock mosi chipSelect misoEnable
  decide

/-- Settles O12: the access of each form of event. -/
theorem eventsAreRegisterAccesses : Obligations.EventsAreRegisterAccesses := by
  refine fun map => ⟨access_write map, fun b => ?_, rfl, rfl, fun _ => rfl⟩
  cases b <;> rfl

/-! ### The byte operations (R100, R101, R104) -/

/-- Settles O14: the writes of the eight bits, highest first, and the last one stays. -/
theorem transmitByteWrites : Obligations.TransmitByteWrites :=
  fun v s => ⟨fun h => ⟨byteEvents v, countEvents_byteEvents v, rfl, transmitByte_active v s h⟩, transmitByte_idle v s⟩

/-- One accumulation doubles and adds, modulo 256 (R104 (b)). -/
theorem shiftIn_toNat (acc : Byte) (b : Bool) : (shiftIn acc b).toNat = (acc.toNat * 2 + b.toNat) % 256 := by
  have hdisjoint : acc <<< 1 &&& (BitVec.ofBool b).setWidth 8 = 0#8 := by
    apply BitVec.eq_of_getLsbD_eq
    intro i hi
    cases i <;> simp
  rw [shiftIn, ← BitVec.add_eq_or_of_and_eq_zero _ _ hdisjoint, BitVec.toNat_add, BitVec.toNat_shiftLeft,
    Nat.shiftLeft_eq]
  cases b <;> simp

/-- The value of a byte from its bits, highest first. -/
theorem toNat_eq_sum_byteBits (v : Byte) :
    v.toNat = ((List.range 8).map fun k => ((byteBits v).getD k false).toNat * 2 ^ (7 - k)).sum := by
  have hvalue : v.toNat = (byteOfBits (byteBits v)).toNat := by rw [byteOfBits_byteBits]
  have hbit (i : Nat) : (byteBit v i).toNat ≤ 1 := Bool.toNat_le _
  have h7 := hbit 7
  have h6 := hbit 6
  have h5 := hbit 5
  have h4 := hbit 4
  have h3 := hbit 3
  have h2 := hbit 2
  have h1 := hbit 1
  have h0 := hbit 0
  rw [hvalue]
  simp only [byteOfBits, byteBits, List.foldl_cons, List.foldl_nil, shiftIn_toNat]
  simp [List.range_succ]
  omega

/-- Eight accumulations give the byte of the eight bits, whatever came before (R104 (c)). -/
theorem byteBits_foldl_eight {bits : List Bool} (h : bits.length = 8) (acc : Byte) :
    byteBits (bits.foldl shiftIn acc) = bits := by
  rw [byteBits_foldl_shiftIn, h]
  exact List.drop_left' rfl

/-- Settles O17: after eight accumulations the bits of the accumulator are the eight bits. -/
theorem accumulatorForgets : Obligations.AccumulatorForgets := by
  refine ⟨shiftIn_toNat, fun acc bits h => ?_⟩
  rw [toNat_eq_sum_byteBits, byteBits_foldl_eight h]

/-- Settles O15: the samples are accumulated from 0. -/
theorem receiveByteSamples : Obligations.ReceiveByteSamples := by
  refine fun s => ⟨fun h => ?_, receiveByte_idle s⟩
  obtain ⟨bits, hdrew, hrun⟩ := receiveByte_active s h
  have hlen : bits.length = 8 := hdrew.1
  refine ⟨bits, byteOfBits bits, receiveEvents bits, hdrew, rfl, countEvents_receiveEvents bits hlen, ?_, hrun⟩
  rw [toNat_eq_sum_byteBits, byteBits_byteOfBits bits hlen]

/-- Where the environment gives enough levels, they are what is read. -/
theorem Drew.eq_of_append {s : State} {n : Nat} {bits first rest : List Bool} (h : s.Drew n bits)
    (hin : s.misoIn = first ++ rest) (hfirst : first.length = n) : bits = first := by
  obtain ⟨hlen, hdrawn⟩ := h
  rwa [hin, List.take_left' hfirst, List.take_of_length_le] at hdrawn
  rw [List.length_append, hlen, hfirst]
  exact Nat.le_add_right ..

/-- Settles O16: the pulses of a byte are its bits, highest first, and eight samples give the byte of them. -/
theorem echoRoundTrip : Obligations.EchoRoundTrip := by
  intro b s h
  obtain ⟨bits, hdrew, hrun⟩ := receiveByte_active
    { s with
      sig := ⟨false, byteBit b 0, false, false⟩
      trace := (byteEvents b).reverse ++ s.trace
      misoIn := pulses (byteEvents b) ++ s.misoIn } h
  obtain rfl : bits = byteBits b := Drew.eq_of_append hdrew (congrArg (· ++ s.misoIn) (pulses_byteEvents b)) rfl
  rw [byteOfBits_byteBits] at hrun
  exact ⟨_, byteEvents b, _, transmitByte_active b s h, rfl, hrun, List.drop_left' rfl⟩

/-- Settles O18: the four operations in the two states of the framer. -/
theorem framerTransitions : Obligations.FramerTransitions := by
  refine fun s => ⟨fun h => ⟨beginTransaction_idle s h, endTransaction_idle s h, fun v => transmitByte_idle v s h,
    receiveByte_idle s h⟩, fun h => ⟨beginTransaction_active s h, endTransaction_active s h, fun v =>
    ⟨_, transmitByte_active v s h, h⟩, ?_⟩⟩
  obtain ⟨bits, -, hrun⟩ := receiveByte_active s h
  exact ⟨_, _, hrun, h⟩

/-! ### One frame (42_transaction_framing.md R113) -/

/-- The samples of the bytes, one after the other, are all the samples. -/
theorem flatMap_sampleByte (count : Nat) (bits : List Bool) (h : bits.length = 8 * count) :
    (List.range count).flatMap (sampleByte bits) = bits := by
  induction count generalizing bits with
  | zero => exact (List.eq_nil_of_length_eq_zero h).symm
  | succ n ih =>
    have hfirst : (bits.take 8).length = 8 := by rw [List.length_take]; omega
    have hrest := ih (bits.drop 8) (by rw [List.length_drop]; omega)
    have hshift : (fun k => sampleByte bits (k + 1)) = sampleByte (bits.drop 8) := by
      funext k
      rw [← List.take_append_drop 8 bits, sampleByte_append _ _ hfirst, List.drop_left' hfirst]
    rw [List.range_succ_eq_map, List.flatMap_cons, List.flatMap_map, hshift, hrest]
    exact List.take_append_drop 8 bits

theorem samples_flatMap {α : Type} (f : α → List Event) (l : List α) :
    samples (l.flatMap f) = l.flatMap fun x => samples (f x) := by
  induction l with
  | nil => rfl
  | cons x rest ih => rw [List.flatMap_cons, samples_append, ih, List.flatMap_cons]

theorem samples_flatMap_bitEvents (bits : List Bool) : samples (bits.flatMap bitEvents) = [] := by
  rw [samples_flatMap]
  exact List.flatMap_eq_nil_iff.mpr fun _ _ => rfl

theorem samples_frameEvents (bytes : List Byte) {count : Nat} {bits : List Bool} (h : bits.length = 8 * count) :
    samples (frameEvents bytes count bits) = bits := by
  have hsent : samples (bytes.flatMap byteEvents) = [] := by
    rw [samples_flatMap]
    exact List.flatMap_eq_nil_iff.mpr fun v _ => samples_flatMap_bitEvents (byteBits v)
  have hreceived : samples ((List.range count).flatMap fun k => receiveEvents (sampleByte bits k)) = bits := by
    simp only [samples_flatMap, samples_receiveEvents]
    exact flatMap_sampleByte count bits h
  simp only [frameEvents, samples_append, hsent, hreceived]
  exact List.append_nil bits

theorem receivedBytes_flatMap_byteBits {count : Nat} {bits : List Bool} (h : bits.length = 8 * count) :
    (receivedBytes count bits).flatMap byteBits = bits := by
  have hbyte : ∀ k ∈ List.range count, byteBits (byteOfBits (sampleByte bits k)) = sampleByte bits k := fun k hk =>
    byteBits_byteOfBits _ (sampleByte_length h (List.mem_range.mp hk))
  rw [receivedBytes, List.flatMap_map, List.flatMap_congr hbyte]
  exact flatMap_sampleByte count bits h

theorem wireDecode_frameEvents (bytes : List Byte) (count : Nat) (bits : List Bool) :
    wireDecode (frameEvents bytes count bits) = [bytes] :=
  congrArg Wire.done (see_frameEvents bytes count bits [])

/-- Settles O19: the pieces of a frame are counted, decoded and sampled one by one. -/
theorem frameOnTheWire : Obligations.FrameOnTheWire := by
  intro bytes count s h
  obtain ⟨bits, hdrew, hrun⟩ := frame_idle bytes count s h
  have hlen : bits.length = 8 * count := hdrew.1
  have hcount : (receivedBytes count bits).length = count := by
    rw [receivedBytes, List.length_map, List.length_range]
  exact ⟨bits, _, frameEvents bytes count bits, _, hdrew, hrun, rfl, countEvents_frameEvents bytes count bits hlen,
    wireDecode_frameEvents bytes count bits, samples_frameEvents bytes hlen, hcount,
    receivedBytes_flatMap_byteBits hlen, rfl⟩

end Sys2Proof.Machine
end

section
/-! `init` and `teardown` from any idle state (44_mode_controller.md R150 to R152), and what the host commands and the bare
frames send, as the wire decoder reads it (30_encoding.md section 5). -/

namespace Sys2Proof.Machine

/-! ### `init` and `teardown` -/

/-- The events of `init`: the signal write, the mode write, the two Reset/Wake frames and the delay points between. -/
def initEvents (d : Delays) : List Event :=
  [evW false false true false, .selectMode .bitBang] ++ delayEvents d.preMs
    ++ frameEvents (List.replicate 8 0xFF#8) 0 [] ++ delayEvents d.midMs ++ frameEvents [0xAB#8] 0 []
    ++ delayEvents d.postMs

/-- The state after `init`. -/
def State.afterInit (d : Delays) (s : State) : State :=
  { s with sig := Signals.rest, mode := .bitBang, rc := some 0, trace := (initEvents d).reverse ++ s.trace }

theorem reverse_delayEvents (ms : Nat) : (delayEvents ms).reverse = delayEvents ms := by
  rw [delayEvents]
  split <;> rfl

theorem initWith_afterInit (d : Delays) (s : State) (h : s.framer = .idle) : initWith d s = .done () (s.afterInit d) := by
  rw [initWith_idle d s h, State.afterInit, initEvents]
  simp only [List.reverse_append, reverse_delayEvents, List.append_assoc]
  rfl

theorem exec_init {s : State} (len : Length) (addr : Address) (h : s.Idle) :
    exec (.init len addr) s = .next (s.afterInit Config.delays) := by
  have hrun := hostCommand_runs .init len addr initCommand s h.seq rfl
  rwa [loadOperands, initCommand, initWith_afterInit _ s h.framer] at hrun

theorem exec_teardown {s : State} (len : Length) (addr : Address) (h : s.seq = .idle) :
    exec (.teardown len addr) s = .next (selectMode .memoryMapped s) :=
  hostCommand_runs .teardown len addr teardown s h rfl

/-- Settles O20: the operations of `init`, one after the other, from idle. -/
theorem initEffect : Obligations.InitEffect :=
  ⟨fun d s h => initWith_afterInit d s h.framer,
    fun len addr s h => ⟨_, initWith_afterInit Config.delays s h.framer, exec_init len addr h⟩⟩

/-- Settles O21: `teardown` is its mode write. -/
theorem teardownEffect : Obligations.TeardownEffect := fun len addr _ h => exec_teardown len addr h

theorem countEvents_delayEvents (ms : Nat) : countEvents (delayEvents ms) = ⟨0, 0, 0, ([ms].filter (· ≠ 0)).length⟩ := by
  by_cases h : ms = 0
  · simp [delayEvents, h, countEvents]
  · simp [delayEvents, h, countEvents, Counts.add]

theorem countEvents_initEvents (d : Delays) :
    countEvents (initEvents d) = ⟨221, 0, 1, ([d.preMs, d.midMs, d.postMs].filter (· ≠ 0)).length⟩ := by
  have hsplit : [d.preMs, d.midMs, d.postMs] = [d.preMs] ++ [d.midMs] ++ [d.postMs] := rfl
  have hconnect : countEvents [evW false false true false, .selectMode .bitBang] = ⟨1, 0, 1, 0⟩ := rfl
  rw [hsplit, List.filter_append, List.filter_append, initEvents]
  simp only [countEvents_append, hconnect, countEvents_delayEvents, countEvents_frameEvents _ 0 [] rfl,
    List.length_append, List.length_replicate, List.length_singleton, Nat.zero_add, Nat.add_zero]

/-- Settles O29: what each of the two emits is determined, and counted piece by piece. -/
theorem modeCommandCounts : Obligations.ModeCommandCounts := by
  refine fun len addr s t es hidle hemit => ⟨fun h => ?_, fun h => ?_⟩
  · obtain rfl := next_inj ((exec_init len addr hidle).symm.trans h)
    obtain rfl : es = initEvents Config.delays := Emitted.unique hemit rfl
    exact countEvents_initEvents Config.delays
  · obtain rfl := next_inj ((exec_teardown len addr hidle.seq).symm.trans h)
    obtain rfl : es = [.selectMode .memoryMapped] := Emitted.unique hemit rfl
    rfl

/-- Settles O57: a reset leaves an idle state outside Bit-Bang mode without a fault, where the nine commands stop at the
mode check and `init` runs. -/
theorem initMustComeFirst : Obligations.InitMustComeFirst := by
  refine fun len addr s => ⟨fun op hi ht => ?_, ?_⟩
  · have hmode : DeviceMode.unknown ≠ .bitBang := nofun
    rw [exec_outsideBitBang len addr hi ht rfl hmode]
    rfl
  · refine ⟨_, initEvents Config.delays, exec_init len addr ⟨rfl, rfl⟩, rfl, ⟨⟨rfl, rfl⟩, rfl⟩, rfl⟩

/-! ### Bare frames (30_encoding.md R63) -/

theorem addressBytes_eq_extractLsb (addr : Address) :
    addressBytes addr = [addr.extractLsb' 16 8, addr.extractLsb' 8 8, addr.extractLsb' 0 8] := by
  have hbyte (k : Nat) : (addr >>> k).setWidth 8 = addr.extractLsb' k 8 := by
    apply BitVec.eq_of_toNat_eq
    simp
  rw [← hbyte, ← hbyte, ← hbyte, BitVec.ushiftRight_zero]
  rfl

/-- A bare frame that receives nothing, from idle. -/
theorem sendOnly_idle {f : FrameName} (addr : Address) (payload : List Byte) {s : State} (h : s.Idle)
    (hq : (descriptor f).received = 0) :
    sendOnly f addr payload s = .next (s.afterSend (frameBytes f addr payload)) := by
  rw [sendOnly, whenIdle_idle _ _ h.seq, sendFrame_send f addr payload s h.framer hq, state_done]

/-- Settles O30: each is its one frame. -/
theorem sendingFramesComplete : Obligations.SendingFramesComplete := by
  intro addr payload s h a
  have ha : addressBytes addr = a := addressBytes_eq_extractLsb addr
  rw [← ha]
  exact ⟨sendOnly_idle _ _ h rfl, sendOnly_idle _ _ h rfl, sendOnly_idle _ _ h rfl, sendOnly_idle _ _ h rfl,
    sendOnly_idle _ _ h rfl, sendOnly_idle _ _ h rfl, sendOnly_idle _ _ h rfl, sendOnly_idle _ _ h rfl⟩

/-- A bare frame whose response goes to the response buffer, from idle. -/
theorem sendAndStore_idle (f : FrameName) (k : Nat) {s : State} (h : s.Idle) :
    ∃ bits, s.Drew (8 * (descriptor f).received) bits ∧
      sendAndStore f k s = .next
        { s.afterFrame (frameBytes f 0 []) (descriptor f).received bits with
          rbuf := storeFrom s.rbuf k (receivedBytes (descriptor f).received bits) } := by
  obtain ⟨bits, hdrew, hrun⟩ := sendFrame_idle f 0 [] s h.framer
  refine ⟨bits, hdrew, ?_⟩
  rw [sendAndStore, whenIdle_idle _ _ h.seq, hrun]
  rfl

theorem storeFrom_identA (rbuf : Vector (Option Byte) 8) (q0 q1 : Byte) :
    storeFrom rbuf 0 [q0, q1] = #v[some q0, some q1, rbuf[2], rbuf[3], rbuf[4], rbuf[5], rbuf[6], rbuf[7]] := by
  apply Vector.ext
  intro i hi
  rw [getElem_storeFrom]
  interval_cases i <;> rfl

theorem storeFrom_identB (rbuf : Vector (Option Byte) 8) (q0 q1 q2 : Byte) :
    storeFrom rbuf 2 [q0, q1, q2] = #v[rbuf[0], rbuf[1], some q0, some q1, some q2, rbuf[5], rbuf[6], rbuf[7]] := by
  apply Vector.ext
  intro i hi
  rw [getElem_storeFrom]
  interval_cases i <;> rfl

/-- Settles O31: the entries of the response buffer from the frame's own on are replaced, and of the status byte the last
sample is kept. -/
theorem receivingFramesComplete : Obligations.ReceivingFramesComplete := by
  refine fun s h => ⟨?_, ?_, ?_, ?_⟩
  · obtain ⟨bits, hdrew, hrun⟩ := sendAndStore_idle .identA 0 h
    refine ⟨bits, _, _, hdrew, rfl, ?_⟩
    rw [← storeFrom_identA]
    exact hrun
  · obtain ⟨bits, hdrew, hrun⟩ := sendAndStore_idle .identB 2 h
    refine ⟨bits, _, _, _, hdrew, rfl, ?_⟩
    rw [← storeFrom_identB]
    exact hrun
  · obtain ⟨bits, hdrew, hrun⟩ := sendAndStore_idle .readUid 0 h
    refine ⟨bits, _, _, _, _, _, _, _, _, hdrew, rfl, ?_⟩
    rw [← storeFrom_readUniqueId s.rbuf]
    exact hrun
  · obtain ⟨bits, hdrew, hrun⟩ := isBusy_idle s h.framer
    refine ⟨bits, hdrew, ?_⟩
    have hstate : execReadStatus s = whenIdle s (isBusy s).state := by
      rw [execReadStatus, isBusy, readStatus]
      cases sendFrame .readStatus 0 [] s <;> rfl
    exact hstate.trans (by rw [whenIdle_idle _ _ h.seq, hrun, state_done])

/-- Settles O59: the events of a bare frame are those of its bytes, which the wire decoder reads back. -/
theorem bareFrameAddressBytes : Obligations.BareFrameAddressBytes := by
  intro addr payload hpayload a s t es h hemit
  have ha : addressBytes addr = a := addressBytes_eq_ofNat addr
  have hwire {f : FrameName} {bytes : List Byte} (hq : (descriptor f).received = 0)
      (hrun : sendOnly f addr bytes s = .next t) : wireDecode es = [frameBytes f addr bytes] := by
    obtain rfl := next_inj ((sendOnly_idle addr bytes h hq).symm.trans hrun)
    obtain rfl := Emitted.unique hemit (emitted_afterFrame ..)
    exact wireDecode_frameEvents _ 0 []
  rw [← ha, ← frameBytes_pageProgram addr payload hpayload]
  exact ⟨hwire rfl, hwire rfl, hwire rfl, hwire rfl⟩

/-! ### Host commands on the wire (30_encoding.md section 5) -/

theorem see_delayEvents (w : Wire) (ms : Nat) : (delayEvents ms).foldl Wire.see w = w := by
  rw [delayEvents]
  split <;> rfl

/-- The first write of `init` opens no transaction, so what the wire decoder reads are the two Reset/Wake frames. -/
theorem wireDecode_initEvents (d : Delays) : wireDecode (initEvents d) = [List.replicate 8 0xFF#8, [0xAB#8]] := by
  have hconnect : [evW false false true false, .selectMode .bitBang].foldl Wire.see Wire.rest =
      ⟨false, false, [], []⟩ := rfl
  simp only [wireDecode, initEvents, List.foldl_append, hconnect, see_delayEvents, see_frameEvents, List.nil_append,
    List.singleton_append]

/-- Settles O28: what a command emits is determined, so it is the frames of its effect. -/
theorem wireTransactions : Obligations.WireTransactions := by
  intro len addr s t es a hemit
  have hread {o : Host.Outcome State Fault Refusal} {transactions : List (List Byte)}
      (h : ∃ u es, o = .next u ∧ s.Emitted u es ∧ wireDecode es = transactions) (ho : o = .next t) :
      wireDecode es = transactions := by
    obtain ⟨u, es', hu, hemit', hwire⟩ := h
    obtain rfl := next_inj (hu.symm.trans ho)
    rwa [Emitted.unique hemit hemit']
  refine ⟨fun h => ⟨?_, ?_⟩, fun hr => ?_⟩
  · exact hread ⟨_, _, exec_init len addr h, rfl, wireDecode_initEvents Config.delays⟩
  · exact hread ⟨_, [.selectMode .memoryMapped], exec_teardown len addr h.seq, rfl, rfl⟩
  · obtain ⟨-, -, -, -, haddressed⟩ := addressBytesBigEndian addr [] (Nat.zero_le _)
    obtain ⟨h4K, h32K, h64K, hwrite⟩ := haddressed len s hr
    rw [← addressBytes_eq_ofNat, addressBytes_eq_extractLsb] at h4K h32K h64K hwrite
    obtain ⟨-, hbusy⟩ := isBusyEffect len addr s
    obtain ⟨-, hidentify⟩ := identifyEffect len addr s
    obtain ⟨-, huid⟩ := readUniqueIdEffect len addr s
    obtain ⟨-, hhold, -⟩ := holdUnholdEffect len addr s
    refine ⟨?_, ?_, ?_, hread h4K, hread h32K, hread h64K, fun hsup => hread (hwrite hsup), ?_, ?_⟩
    · obtain ⟨bits, -, hrun, -⟩ := hbusy hr
      exact hread ⟨_, _, hrun, emitted_afterFrame .., wireDecode_frameEvents ..⟩
    · obtain ⟨_, _, _, _, _, _, _, -, -, -, -, hrun, -⟩ := hidentify hr
      exact hread ⟨_, _, hrun, Emitted.trans (emitted_afterFrame ..) (emitted_afterFrame ..),
        wireDecode_frameEvents_append ..⟩
    · obtain ⟨_, _, _, _, _, _, _, _, _, -, -, hrun, -⟩ := huid hr
      exact hread ⟨_, _, hrun, emitted_afterFrame .., wireDecode_frameEvents ..⟩
    · exact hread ⟨_, _, (hhold hr).1, emitted_afterFrame .., wireDecode_frameEvents ..⟩
    · exact hread ⟨_, _, (hhold hr).2, emitted_afterFrame .., wireDecode_frameEvents ..⟩

end Sys2Proof.Machine
end

section
/-! What the next step attends to (spec/30_encoding.md R72, spec/10_state.md R18, R20): reset, event, frame, command; and
the caller's commands with their payloads and addresses. -/

namespace Sys2Proof.Machine

/-! ### What a step does -/

theorem step_event {s : State} {op : HostOp} {k : Nat} (hr : s.resetIn = false) (hs : s.seq = .running op k) :
    step s = eventStep s := by
  simp [step, todo, hr, hs]

theorem step_frame {s : State} {bytes : List Byte} {i : Instr} (hr : s.resetIn = false) (hs : s.seq = .idle)
    (hf : s.frameSlot = some bytes) (hd : decode (.frame bytes) = .ok i) :
    step s = exec i { s with frameSlot := none } := by
  simp [step, todo, hr, hs, hf, hd]

theorem step_noSuchFrame {s : State} {bytes : List Byte} {why : DecodeError} (hr : s.resetIn = false)
    (hs : s.seq = .idle) (hf : s.frameSlot = some bytes) (hd : decode (.frame bytes) = .error why) :
    step s = .refused (.noSuchFrame why) := by
  simp [step, todo, hr, hs, hf, hd]

theorem step_caller {s : State} {r : Request} {rest : List Request} {i : Instr} (hr : s.resetIn = false)
    (hs : s.seq = .idle) (hf : s.frameSlot = none) (hc : s.caller = r :: rest) (hd : decode (.host r.word) = .ok i) :
    step s = exec i (supplyPayload r { s with caller := rest }) := by
  simp [step, todo, hr, hs, hf, hc, hd]

theorem step_wait {s : State} (hr : s.resetIn = false) (hs : s.seq = .idle) (hf : s.frameSlot = none)
    (hc : s.caller = []) : step s = .next s := by
  simp [step, todo, hr, hs, hf, hc]

/-- The caller's command, unless it is a `beginWrite`, is executed with `PBUF` as it was. -/
theorem step_caller_other {s : State} {r : Request} {rest : List Request} {i : Instr} (hr : s.resetIn = false)
    (hs : s.seq = .idle) (hf : s.frameSlot = none) (hc : s.caller = r :: rest) (hd : decode (.host r.word) = .ok i)
    (hi : ∀ len addr, i ≠ .beginWrite len addr) : step s = exec i { s with caller := rest } := by
  rw [step_caller hr hs hf hc hd, supplyPayload_other r _ i hd hi]

/-- A `beginWrite` is executed with the payload supplied with it. -/
theorem step_caller_beginWrite {s : State} {r : Request} {rest : List Request} {len : Length} {addr : Address}
    (hr : s.resetIn = false) (hs : s.seq = .idle) (hf : s.frameSlot = none) (hc : s.caller = r :: rest)
    (hd : decode (.host r.word) = .ok (.beginWrite len addr)) :
    step s = exec (.beginWrite len addr) { s with caller := rest, pbuf := r.entries } := by
  rw [step_caller hr hs hf hc hd, supplyPayload_beginWrite r _ len addr hd]

/-- Settles O53: the order of the cases of `todo`. -/
theorem stepRunsDecoded : Obligations.StepRunsDecoded := by
  refine fun s => ⟨step_reset, fun hr => ⟨fun op k hs => step_event hr hs, fun hs => ⟨fun bytes hf =>
    ⟨fun i hd => step_frame hr hs hf hd, fun why hd => step_noSuchFrame hr hs hf hd⟩, fun hf =>
    ⟨fun r rest i hc hd => ⟨step_caller_other hr hs hf hc hd, ?_⟩, step_wait hr hs hf⟩⟩⟩⟩
  rintro len addr rfl
  exact step_caller_beginWrite hr hs hf hc hd

/-! ### A code placed for the next step -/

/-- No wire frame decodes to a host command. -/
theorem decode_frame_ne_beginWrite {bytes : List Byte} {i : Instr} (h : decode (.frame bytes) = .ok i) (len : Length)
    (addr : Address) : i ≠ .beginWrite len addr := by
  rintro rfl
  cases (codeRoundTrip _ _ h).1

/-- Settles O54: where the code is placed, nothing that a step attends to first is left. -/
theorem placedCodeRuns : Obligations.PlacedCodeRuns := by
  intro c i s hd
  cases c with
  | frame bytes =>
    have hrun : step (placeCode (.frame bytes) s) = exec i { s with resetIn := false, seq := .idle, frameSlot := none } :=
      step_frame rfl rfl rfl hd
    exact ⟨fun _ => hrun, fun len addr hi => absurd hi (decode_frame_ne_beginWrite hd len addr), fun _ => hrun⟩
  | host w =>
    have hother (hi : ∀ len addr, i ≠ .beginWrite len addr) : step (placeCode (.host w) s) =
        exec i { s with resetIn := false, seq := .idle, frameSlot := none } :=
      step_caller_other (r := ⟨w, some s.pbuf⟩) rfl rfl rfl rfl hd hi
    have hwrite (len : Length) (addr : Address) (hi : i = .beginWrite len addr) : step (placeCode (.host w) s) =
        exec i { s with resetIn := false, seq := .idle, frameSlot := none, pbuf := s.pbuf.take 256 } := by
      subst hi
      exact step_caller_beginWrite (r := ⟨w, some s.pbuf⟩) rfl rfl rfl rfl hd
    refine ⟨hother, hwrite, fun hlen => ?_⟩
    by_cases hi : ∃ len addr, i = .beginWrite len addr
    · obtain ⟨len, addr, hi⟩ := hi
      rw [hwrite len addr hi, List.take_of_length_le hlen]
    · exact hother fun len addr h => hi ⟨len, addr, h⟩

/-! ### Reset (R190, R191) -/

theorem hostReadRbuf_of_replicate {s : State} (h : s.rbuf = Vector.replicate 8 none) (i : Nat) :
    s.hostReadRbuf i = none := by
  rw [State.hostReadRbuf, h, Vector.getElem?_replicate]
  split <;> rfl

/-- Settles O55: a reset is what a step attends to first, and it writes every register but the four that are free. -/
theorem resetClearsControl : Obligations.ResetClearsControl :=
  fun s hr => ⟨applyReset s, step_reset hr, rfl, rfl, rfl, rfl, rfl, hostReadRbuf_of_replicate rfl, fun _ => rfl, rfl, rfl,
    rfl, rfl, rfl, rfl⟩

/-- Settles O56: the fields of the state after power-on. -/
theorem powerOnState : Obligations.PowerOnState :=
  ⟨rfl, rfl, rfl, rfl, rfl, hostReadRbuf_of_replicate rfl, fun _ => rfl, rfl, rfl, rfl, rfl⟩

/-! ### The caller's commands -/

/-- Settles O58: the request holds the low 24 bits of the address, and those are loaded and sent. -/
theorem wideAddressTruncated : Obligations.WideAddressTruncated := by
  intro address data len s rest hready hr hf a
  have htrunc : (BitVec.ofNat 24 address).toNat = address % 2 ^ 24 := BitVec.toNat_ofNat address 24
  have hready' : { s with caller := rest }.Ready := ⟨⟨hready.seq, hready.framer⟩, hready.mode⟩
  obtain ⟨h4K, h32K, h64K, -⟩ := (eraseEffect 0 address { s with caller := rest }).2 hready'
  have herase (op : HostOp) {t : State} (hop : op ≠ .beginWrite)
      (hc : s.caller = ⟨hostWord op.code 0 (BitVec.ofNat 24 address), none⟩ :: rest)
      (hrun : exec (op.instr 0 (BitVec.ofNat 24 address)) { s with caller := rest } = .next t) : step s = .next t := by
    have hd := decode_code op 0 (BitVec.ofNat 24 address)
    rw [step_caller_other hr hready.seq hf hc hd fun l x h => ?_, hrun]
    cases op <;> cases h
    exact hop rfl
  refine ⟨fun hc => ⟨_, herase .beginErase4K nofun hc h4K, htrunc, rfl⟩,
    fun hc => ⟨_, herase .beginErase32K nofun hc h32K, htrunc, rfl⟩,
    fun hc => ⟨_, herase .beginErase64K nofun hc h64K, htrunc, rfl⟩, fun hc hlen => ?_⟩
  have hd := decode_code .beginWrite len (BitVec.ofNat 24 address)
  have hready'' : { s with caller := rest, pbuf := data.take 256 }.Ready := ⟨⟨hready.seq, hready.framer⟩, hready.mode⟩
  obtain ⟨-, -, hwrite⟩ := beginWriteEffect len address { s with caller := rest, pbuf := data.take 256 }
  obtain ⟨hrun, -⟩ := hwrite hready'' (by rw [List.length_take]; omega)
  rw [List.take_take, Nat.min_eq_left (Nat.min_le_right ..)] at hrun
  exact ⟨_, (step_caller_beginWrite hr hready.seq hf hc hd).trans hrun, htrunc, rfl, rfl⟩

/-- Settles O60: the payload buffer is replaced before the operand check, which then finds the supplied entries alone. -/
theorem payloadTravelsWithCommand : Obligations.PayloadTravelsWithCommand := by
  intro len addr payload s rest hs hm hr hf hc n bytes a
  have hd := decode_code .beginWrite len addr
  have hstep : step s = exec (.beginWrite len addr) { s with caller := rest, pbuf := bytes } :=
    step_caller_beginWrite hr hs hf hc hd
  have ha : addressBytes addr = a := addressBytes_eq_extractLsb addr
  refine ⟨fun hshort => ?_, fun hframer hsup => ?_⟩
  · have hidle : { s with caller := rest, pbuf := bytes }.seq = .idle := hs
    rw [hstep]
    exact (hostCommand_beginWrite_short hidle hm (Nat.not_le.mpr hshort)).trans
      (congrArg Host.Outcome.next (raiseFault_idle _ hidle))
  · obtain ⟨-, -, hwrite⟩ := beginWriteEffect len addr.toNat { s with caller := rest, pbuf := bytes }
    obtain ⟨hrun, -⟩ := hwrite ⟨⟨hs, hframer⟩, hm⟩ hsup
    rw [BitVec.ofNat_toNat, BitVec.setWidth_eq] at hrun
    rw [hstep, ← ha, addressBytes_eq_ofNat]
    exact hrun

end Sys2Proof.Machine
end

section
/-! The two views of a command (92_eei_decisions.md D24): the events of a command, run one after the other, do what its
procedure does, and the event step runs them. -/

namespace Sys2Proof.Machine

/-! ### Events one after the other -/

/-- The events of a list, one after the other; a raised fault ends them. -/
def runMicros (ms : List Micro) (s : State) : Result Unit :=
  match ms with
  | [] => .done () s
  | m :: rest => (m.run s).andThen fun _ t => runMicros rest t

theorem andThen_assoc {α β γ : Type} (r : Result α) (f : α → State → Result β) (g : β → State → Result γ) :
    (r.andThen f).andThen g = r.andThen fun a s => (f a s).andThen g := by
  cases r <;> rfl

theorem runMicros_append (a b : List Micro) (s : State) :
    runMicros (a ++ b) s = (runMicros a s).andThen fun _ t => runMicros b t := by
  induction a generalizing s with
  | nil => rfl
  | cons m rest ih => simp only [List.cons_append, runMicros, andThen_assoc, ih]

/-- A list that runs to `t` may be followed by another from `t`. -/
theorem runMicros_trans {a b : List Micro} {s t : State} {r : Result Unit} (ha : runMicros a s = .done () t)
    (hb : runMicros b t = r) : runMicros (a ++ b) s = r := by
  rw [runMicros_append, ha, andThen_done, hb]

theorem runMicros_transmit (v : Byte) (n : Nat) (s : State) :
    runMicros (transmitMicros v n) s = .done () (transmitBits v n s) := by
  induction n generalizing s with
  | zero => rfl
  | succ n ih => exact runMicros_trans (a := transmitBitMicros (byteBit v n)) rfl (ih _)

theorem runMicros_receiveBits (dest : Option Nat) (n : Nat) (s : State) :
    runMicros (receiveBitMicros dest n) s = .done () (storeByte dest (receiveBits (n + 1) s)) := by
  induction n generalizing s with
  | zero => rfl
  | succ n ih =>
    exact runMicros_trans (a := [.write ⟨true, false, false, true⟩, .sample, .write ⟨false, false, false, true⟩]) rfl
      (ih (receiveBit s))

theorem runMicros_receive (dest : Option Nat) {s : State} (h : s.framer = .active) :
    runMicros (receiveMicros dest) s = (receiveByte s).andThen fun _ t => .done () (storeByte dest t) := by
  have hrun : receiveByte s = .done (receiveBits 8 (startReceive s)).acc (receiveBits 8 (startReceive s)) := by
    rw [receiveByte, h]
  rw [hrun, andThen_done]
  exact runMicros_trans (a := [.startReceive]) rfl (runMicros_receiveBits dest 7 (startReceive s))

/-! ### Frames -/

theorem runMicros_transmitBytes (bytes : List Byte) {s : State} (h : s.framer = .active) :
    runMicros (bytes.flatMap (transmitMicros · 8)) s = transmitBytes bytes s := by
  induction bytes generalizing s with
  | nil => rfl
  | cons v rest ih =>
    have hbyte : transmitByte v s = .done () (transmitBits v 8 s) := by rw [transmitByte, h]
    have hnext : (transmitBits v 8 s).framer = .active := by rw [transmitBits_eq]; exact h
    rw [List.flatMap_cons, transmitBytes, hbyte, andThen_done]
    exact runMicros_trans (runMicros_transmit v 8 s) (ih hnext)

theorem receiveBits_storeResponse (k : Nat) (p : List Byte) (n : Nat) (s : State) :
    receiveBits n (storeResponse k p s) = storeResponse k p (receiveBits n s) := by
  induction n generalizing s with
  | zero => rfl
  | succ n ih => exact ih (receiveBit s)

theorem receiveByte_framer {s t : State} {b : Byte} (h : receiveByte s = .done b t) : t.framer = .active ∧ t.acc = b := by
  cases hf : s.framer with
  | idle =>
    rw [receiveByte_idle s hf] at h
    cases h
  | active =>
    obtain ⟨bits, -, hrun⟩ := receiveByte_active s hf
    rw [hrun] at h
    cases h
    exact ⟨hf, rfl⟩

theorem receiveByte_storeResponse (k : Nat) (p : List Byte) {s : State} (h : s.framer = .active) :
    receiveByte (storeResponse k p s) = (receiveByte s).andThen fun b t => .done b (storeResponse k p t) := by
  have hstart : startReceive (storeResponse k p s) = storeResponse k p (startReceive s) := rfl
  simp only [receiveByte, storeResponse_framer, h, andThen_done, hstart, receiveBits_storeResponse, storeResponse_acc]

/-- Receiving neither reads nor writes the response buffer. -/
theorem receiveBytes_storeResponse (k : Nat) (p : List Byte) (n : Nat) {s : State} (h : s.framer = .active) :
    receiveBytes n (storeResponse k p s) = (receiveBytes n s).andThen fun q t => .done q (storeResponse k p t) := by
  induction n generalizing s with
  | zero => rfl
  | succ n ih =>
    rw [receiveBytes, receiveByte_storeResponse k p h, receiveBytes]
    cases hb : receiveByte s with
    | done b t =>
      simp only [andThen_done, ih (receiveByte_framer hb).1, andThen_assoc]
    | raised t => rfl

/-- Bytes stored one by one, each as it arrives, are stored as a whole (10_state.md R17; log 16). -/
theorem runMicros_receiveBytes (k n : Nat) {s : State} (h : s.framer = .active) :
    runMicros ((entries k n).flatMap receiveMicros) s =
      (receiveBytes n s).andThen fun q t => .done () (storeResponse k q t) := by
  induction n generalizing k s with
  | zero => rfl
  | succ n ih =>
    have hentries : entries k (n + 1) = some k :: entries (k + 1) n := by
      rw [entries, List.range'_succ, List.map_cons, entries]
    rw [hentries, List.flatMap_cons, runMicros_append, runMicros_receive _ h, receiveBytes]
    cases hb : receiveByte s with
    | raised t => rfl
    | done b t =>
      obtain ⟨hframer, rfl⟩ := receiveByte_framer hb
      have hstored : (storeResponse k [t.acc] t).framer = .active := hframer
      simp only [andThen_done, storeByte, ih (k + 1) hstored, receiveBytes_storeResponse k [t.acc] n hframer,
        andThen_assoc]
      rfl

/-- The events of a frame whose received bytes go into the response buffer, each as it arrives, as `store` puts them
there together. -/
theorem runMicros_frame {dests : List (Option Nat)} {n : Nat}
    (store : List Byte → Vector (Option Byte) 8 → Vector (Option Byte) 8)
    (hreceive : ∀ s : State, s.framer = .active → runMicros (dests.flatMap receiveMicros) s =
      (receiveBytes n s).andThen fun q t => .done () { t with rbuf := store q t.rbuf }) (bytes : List Byte) (s : State) :
    runMicros (frameMicros bytes dests) s =
      (frame bytes n s).andThen fun q t => .done () { t with rbuf := store q t.rbuf } := by
  have hopen : runMicros (frameMicros bytes dests) s = (beginTransaction s).andThen fun _ t =>
      runMicros (bytes.flatMap (transmitMicros · 8) ++ dests.flatMap receiveMicros ++ [.closeFrame]) t := rfl
  cases hf : s.framer with
  | active => rw [hopen, frame_active bytes n s hf, beginTransaction_active s hf, andThen_raised, andThen_raised]
  | idle =>
    obtain ⟨s1, hbegin, h1⟩ : ∃ s1, beginTransaction s = .done () s1 ∧ s1.framer = .active :=
      ⟨_, beginTransaction_idle s hf, rfl⟩
    obtain ⟨s2, hsent, h2⟩ : ∃ s2, transmitBytes bytes s1 = .done () s2 ∧ s2.framer = .active := by
      obtain ⟨v, hsent⟩ := transmitBytes_active bytes s1 h1
      exact ⟨_, hsent, h1⟩
    obtain ⟨q, s3, hreceived, h3⟩ : ∃ q s3, receiveBytes n s2 = .done q s3 ∧ s3.framer = .active := by
      obtain ⟨bits, v, -, hreceived⟩ := receiveBytes_active n s2 h2
      exact ⟨_, _, hreceived, h2⟩
    have hsent' : runMicros (bytes.flatMap (transmitMicros · 8)) s1 = .done () s2 :=
      (runMicros_transmitBytes bytes h1).trans hsent
    have hreceived' : runMicros (dests.flatMap receiveMicros) s2 = .done () { s3 with rbuf := store q s3.rbuf } := by
      rw [hreceive s2 h2, hreceived, andThen_done]
    rw [hopen, hbegin, andThen_done, runMicros_trans (runMicros_trans hsent' hreceived') rfl]
    simp only [frame, hbegin, hsent, hreceived, endTransaction_active s3 h3, andThen_done]
    simp only [runMicros, Micro.run, endTransaction, h3, andThen_done]
    rfl

theorem runMicros_frame_send (bytes : List Byte) (s : State) :
    runMicros (frameMicros bytes []) s = (frame bytes 0 s).andThen fun _ t => .done () t :=
  runMicros_frame (fun _ rbuf => rbuf) (fun _ _ => rfl) bytes s

theorem runMicros_frame_store (bytes : List Byte) (k n : Nat) (s : State) :
    runMicros (frameMicros bytes (entries k n)) s = (frame bytes n s).andThen fun q t => .done () (storeResponse k q t) :=
  runMicros_frame (fun q rbuf => storeFrom rbuf k q) (fun _ h => runMicros_receiveBytes k n h) bytes s

/-- One byte that no entry keeps. -/
theorem runMicros_frame_one (bytes : List Byte) (s : State) :
    runMicros (frameMicros bytes [none]) s = (frame bytes 1 s).andThen fun _ t => .done () t := by
  refine runMicros_frame (fun _ rbuf => rbuf) (fun s h => ?_) bytes s
  rw [List.flatMap_singleton, runMicros_receive none h, receiveBytes]
  cases receiveByte s <;> rfl

theorem runMicros_delay (ms : Nat) (s : State) : runMicros (delayMicros ms) s = .done () (delayPoint ms s) := by
  rw [delayMicros, delayPoint, delayEvents]
  split
  · rfl
  · rename_i h
    simp only [runMicros, Micro.run, andThen_done, delayPoint, delayEvents, if_neg h]

/-! ### Commands -/

theorem runMicros_openFrame {ms : List Micro} {s : State} (h : s.framer = .active) :
    runMicros (.openFrame :: ms) s = .raised (raiseFault .nest s) := by
  rw [runMicros, Micro.run, beginTransaction_active s h, andThen_raised]

theorem runMicros_enableThen (f : FrameName) (payload : List Byte) (s : State) (hq : (descriptor f).received = 0) :
    runMicros (enableThenMicros f s.addr payload) s = enableThen f payload s := by
  cases hf : s.framer with
  | active =>
    obtain ⟨-, -, henable, -⟩ := nestedTransactionFaults s hf
    rw [enableThen, henable, andThen_raised]
    exact runMicros_openFrame hf
  | idle =>
    have hsend {t : State} (ht : t.framer = .idle) (bytes : List Byte) :
        runMicros (frameMicros bytes []) t = .done () (t.afterSend bytes) := by
      rw [runMicros_frame_send, frame_send bytes t ht, andThen_done]
    rw [enableThen_idle f payload s hf hq]
    exact runMicros_trans (hsend hf _) (hsend (t := s.afterSend (frameBytes .writeEnable 0 [])) hf _)

theorem runMicros_init (d : Delays) (addr : Address) (len : Length) (pbuf : List Byte) (s : State) :
    ((runMicros (commandMicros d .init addr len pbuf) s).andThen fun _ t => .done () (storeSuccess t)) = initWith d s := by
  have hconnect : runMicros [.write ⟨Config.initClock, false, true, false⟩, .selectMode .bitBang] s =
      .done () (selectMode .bitBang (writeSignals Config.initClock false true false s)) := rfl
  simp only [commandMicros, runMicros_append, hconnect, runMicros_delay, runMicros_frame_send, andThen_assoc,
    andThen_done]
  simp only [initWith, resetWake, andThen_assoc, andThen_done]
  rfl

theorem frame_one_acc {bytes : List Byte} {s t : State} {q : List Byte} (h : frame bytes 1 s = .done q t) :
    t.acc = q.headD 0x00#8 := by
  cases hf : s.framer with
  | active =>
    rw [frame_active bytes 1 s hf] at h
    cases h
  | idle =>
    obtain ⟨bits, hdrew, hrun⟩ := frame_idle bytes 1 s hf
    rw [hrun] at h
    obtain ⟨rfl, rfl⟩ := Result.done.inj h
    rw [afterFrame_acc, receivedBytes_one bits hdrew.1]
    rfl

/-- The events of a command, with its result stored after the last, do what its procedure does. -/
theorem runMicros_command (op : HostOp) (s : State) :
    ((runMicros (eventsOf Config.delays op s) s).andThen fun _ t => .done () (storeResult op t)) = procedure op s := by
  have hnoResult (r : Result Unit) : (r.andThen fun _ t => .done () t) = r := by cases r <;> rfl
  cases op with
  | init => exact runMicros_init Config.delays _ _ _ s
  | teardown => rfl
  | isBusy =>
    rw [eventsOf, commandMicros, runMicros_frame_one, andThen_assoc, procedure, isBusy, readStatus, andThen_assoc]
    cases h : frame (frameBytes .readStatus 0 []) 1 s with
    | raised t => rw [sendFrame, descriptor, h]; rfl
    | done q t =>
      rw [sendFrame, descriptor, h]
      simp only [andThen_done, storeResult, frame_one_acc h]
  | identify =>
    rw [eventsOf, commandMicros, runMicros_append, runMicros_frame_store]
    simp only [runMicros_frame_store, andThen_assoc, andThen_done]
    rfl
  | readUniqueId => exact (hnoResult _).trans (runMicros_frame_store ..)
  | beginErase4K => exact (hnoResult _).trans (runMicros_enableThen _ _ s rfl)
  | beginErase32K => exact (hnoResult _).trans (runMicros_enableThen _ _ s rfl)
  | beginErase64K => exact (hnoResult _).trans (runMicros_enableThen _ _ s rfl)
  | beginWrite => exact (hnoResult _).trans (runMicros_enableThen _ _ s rfl)
  | hold => exact (hnoResult _).trans (runMicros_frame_send ..)
  | unhold => exact (hnoResult _).trans (runMicros_frame_send ..)

/-! ### The event step -/

/-- An event leaves the position and the operands alone; a fault it raises ends the command. -/
theorem Micro.run_cases (m : Micro) (s : State) :
    (∃ t, m.run s = .done () t ∧ t.seq = s.seq ∧ t.addr = s.addr ∧ t.len = s.len ∧ t.pbuf = s.pbuf)
    ∨ ∃ t, m.run s = .raised t ∧ t.seq = .idle := by
  cases m with
  | openFrame =>
    cases hf : s.framer with
    | idle => exact .inl ⟨_, beginTransaction_idle s hf, rfl, rfl, rfl, rfl⟩
    | active => exact .inr ⟨_, beginTransaction_active s hf, rfl⟩
  | closeFrame =>
    cases hf : s.framer with
    | idle => exact .inr ⟨_, endTransaction_idle s hf, rfl⟩
    | active => exact .inl ⟨_, endTransaction_active s hf, rfl, rfl, rfl, rfl⟩
  | endReceive dest => cases dest <;> exact .inl ⟨_, rfl, rfl, rfl, rfl, rfl⟩
  | _ => exact .inl ⟨_, rfl, rfl, rfl, rfl, rfl⟩

/-- An event does not read the position. -/
theorem Micro.run_setSeq (m : Micro) (s : State) (q : Seq) :
    m.run { s with seq := q } = (m.run s).andThen fun _ t => .done () { t with seq := q } := by
  obtain ⟨sig, mode, acc, addr, len, rbuf, pbuf, busy, rc, seq, framer⟩ := s
  cases m with
  | openFrame => cases framer <;> rfl
  | closeFrame => cases framer <;> rfl
  | endReceive dest => cases dest <;> rfl
  | _ => rfl

theorem runEvents_idle (n : Nat) {s : State} (h : s.seq = .idle) : runEvents n s = .next s := by
  induction n with
  | zero => rfl
  | succ n ih =>
    have hstep : eventStep s = .next s := by rw [eventStep, eventStepWith, h]
    rw [runEvents, hstep]
    exact ih

theorem storeResult_setSeq (op : HostOp) (q : Seq) (s : State) :
    storeResult op { s with seq := q } = { storeResult op s with seq := q } := by
  cases op <;> rfl

theorem setSeq_self {s : State} {q : Seq} (h : s.seq = q) : { s with seq := q } = s := by
  rw [← h]

/-- From position `k` on, enough event steps run the rest of the event list. -/
theorem runEvents_running (op : HostOp) (n k : Nat) {s : State} (hs : s.seq = .idle)
    (hk : k < (eventsOf Config.delays op s).length) (hn : (eventsOf Config.delays op s).length ≤ k + n) :
    runEvents n { s with seq := .running op k } =
      .next ((runMicros ((eventsOf Config.delays op s).drop k) s).andThen fun _ t =>
        .done () (storeResult op t)).state := by
  induction n generalizing k s with
  | zero => omega
  | succ n ih =>
    have hevents (q : Seq) : eventsOf Config.delays op { s with seq := q } = eventsOf Config.delays op s := rfl
    rw [runEvents, eventStep, eventStepWith, List.drop_eq_getElem_cons hk, runMicros]
    simp only [hevents, List.getElem?_eq_getElem hk]
    rw [Micro.run_setSeq]
    obtain ⟨t, hrun, hseq, haddr, hlen, hpbuf⟩ | ⟨t, hrun, hseq⟩ := (eventsOf Config.delays op s)[k].run_cases s
    · have heventsT : eventsOf Config.delays op t = eventsOf Config.delays op s := by
        rw [eventsOf, eventsOf, haddr, hlen, hpbuf]
      rw [hrun, andThen_done, andThen_done]
      by_cases hmore : k + 1 < (eventsOf Config.delays op s).length
      · have hrest := ih (k + 1) (hseq.trans hs) (by rwa [heventsT]) (by rw [heventsT]; omega)
        rw [heventsT] at hrest
        simp only [advance, if_pos hmore]
        exact hrest
      · have hlast : (eventsOf Config.delays op s).drop (k + 1) = [] := List.drop_of_length_le (Nat.not_lt.mp hmore)
        have hstored : { storeResult op t with seq := .idle } = storeResult op t := by
          rw [← storeResult_setSeq, setSeq_self (hseq.trans hs)]
        simp only [advance, if_neg hmore, hlast, runMicros, andThen_done, state_done, storeResult_setSeq, hstored]
        exact runEvents_idle n (congrArg State.seq hstored).symm
    · rw [hrun]
      exact runEvents_idle n hseq

/-- Settles O50: the checks and loads are the same, and the event steps run the events of the procedure. -/
theorem eventViewAgrees : Obligations.EventViewAgrees := by
  intro op len addr s hs
  rw [exec_instr]
  cases ha : admissionFault op len s with
  | some c =>
    refine ⟨raiseFault c s, ?_, fun n _ => ?_⟩
    · rw [present, whenIdle_idle _ _ hs, ha]
    · rw [hostCommand_faults op len addr _ s c hs ha, runEvents_idle n (raiseFault_seq c s)]
  | none =>
    have hloaded : (loadOperands op len addr s).seq = .idle := by
      rw [loadOperands_sameControl op len addr s]
      exact hs
    refine ⟨{ loadOperands op len addr s with seq := .running op 0 }, ?_, fun n hn => ?_⟩
    · rw [present, whenIdle_idle _ _ hs, ha]
    · have hpos := commandMicros_length_pos Config.delays op (loadOperands op len addr s).addr
        (loadOperands op len addr s).len (loadOperands op len addr s).pbuf
      rw [hostCommand_runs op len addr _ s hs ha, runEvents_running op n 0 hloaded hpos (by rwa [Nat.zero_add]),
        List.drop_zero, runMicros_command]

end Sys2Proof.Machine
end
